-- ==== Sys2Proof/Word.lean ====
section
/-! DEFINITION. The word and byte types, and the eight-slot record the hash state is made of
(spec/00_scope.md R7, R9; spec/10_state.md R21). -/

namespace Sys2Proof

/-- "A *Word* is an unsigned integer in `[0, 2^32)`" (R7). -/
abbrev Word := BitVec 32

/-- "A byte is an unsigned integer in `[0, 256)`" (R9). -/
abbrev Byte := BitVec 8

/-- Eight like things under the labels of the round function: slot 0 is `a`, slot 7 is `h` (R21). -/
structure Eight (α : Type) where
  a : α
  b : α
  c : α
  d : α
  e : α
  f : α
  g : α
  h : α
deriving DecidableEq, Repr

end Sys2Proof
end

