-- ==== Sys2Proof/Syntax.lean ====
section
/-! DEFINITION. The commands of the core, one constructor per row of the opcode table
(spec/30_encoding.md R91). Every operand but ROTR's is implicit in the opcode (R93). -/

namespace Sys2Proof

inductive Instr where
  | nop
  | add
  /-- `n` is the 5-bit rotate field `N = cmd[12:8]` (R92). -/
  | rotr (n : BitVec 5)
  | ssig0
  | ssig1
  | bsig0
  | bsig1
  | ch
  | maj
  | sched
  | round
  | compress
  | pad
  | init
  | serial
  | hash
  | deser
  | recoverhex
  | hexenc
  | forge
deriving DecidableEq, Repr

end Sys2Proof
end

