-- ==== Sys2Proof/WellFormed.lean ====
section
/-! DEFINITION. Which commands are valid: the one operand field there is, ROTR's, has the domain
`1 ≤ N ≤ 31` (spec/30_encoding.md R92, R98). -/

namespace Sys2Proof

/-- "ROTR needs `1 ≤ N ≤ 31`" (R92); the five bits cannot hold more than 31, and no other command
has an operand. `ROTR 0` has a word and an effect (it raises BAD_ROTATE), but it is not valid. -/
def Instr.wf : Instr → Bool
  | .nop => true
  | .add => true
  | .rotr n => n != 0
  | .ssig0 => true
  | .ssig1 => true
  | .bsig0 => true
  | .bsig1 => true
  | .ch => true
  | .maj => true
  | .sched => true
  | .round => true
  | .compress => true
  | .pad => true
  | .init => true
  | .serial => true
  | .hash => true
  | .deser => true
  | .recoverhex => true
  | .hexenc => true
  | .forge => true

end Sys2Proof
end

