-- ==== Sys2Proof/Decode.lean ====
section
/-! DEFINITION. The command word: fields, decoder, encoder and assembler (spec/30_encoding.md R90 to
R98). The decoder is total and rejects by name. -/

namespace Sys2Proof

/-- The hardware errors by their names (spec/60_exceptions.md R263). Raised by the decoder
(`illegalOpcode`, `reservedField`) and by the commands' own checks (the others); an error is no stop:
the command completes and `STATUS` reports it. -/
inductive ErrCode where
  | illegalOpcode
  | reservedField
  | badRotate
  | lengthRange
  | invalidDigestEncoding
deriving DecidableEq, Repr

/-- `OP = cmd[7:0]` (R90). -/
def opField (w : Word) : BitVec 8 := w.extractLsb' 0 8

/-- `N = cmd[12:8]` (R90). -/
def nField (w : Word) : BitVec 5 := w.extractLsb' 8 5

/-- `RSV = cmd[31:13]` (R90). -/
def rsvField (w : Word) : BitVec 19 := w.extractLsb' 13 19

/-- The opcode map (R91): the command an `OP` value is assigned to, `none` for every unassigned one
(R95). -/
def assignedTo (op : BitVec 8) (n : BitVec 5) : Option Instr :=
  match op.toNat with
  | 0x00 => some .nop
  | 0x01 => some .add
  | 0x02 => some (.rotr n)
  | 0x03 => some .ssig0
  | 0x04 => some .ssig1
  | 0x05 => some .bsig0
  | 0x06 => some .bsig1
  | 0x07 => some .ch
  | 0x08 => some .maj
  | 0x10 => some .sched
  | 0x11 => some .round
  | 0x12 => some .compress
  | 0x18 => some .pad
  | 0x20 => some .init
  | 0x21 => some .serial
  | 0x22 => some .hash
  | 0x30 => some .deser
  | 0x31 => some .recoverhex
  | 0x32 => some .hexenc
  | 0x33 => some .forge
  | _ => none

/-- The opcode of a command (R91). -/
def Instr.opcode : Instr → BitVec 8
  | .nop => 0x00
  | .add => 0x01
  | .rotr _ => 0x02
  | .ssig0 => 0x03
  | .ssig1 => 0x04
  | .bsig0 => 0x05
  | .bsig1 => 0x06
  | .ch => 0x07
  | .maj => 0x08
  | .sched => 0x10
  | .round => 0x11
  | .compress => 0x12
  | .pad => 0x18
  | .init => 0x20
  | .serial => 0x21
  | .hash => 0x22
  | .deser => 0x30
  | .recoverhex => 0x31
  | .hexenc => 0x32
  | .forge => 0x33

/-- What a command puts into the `N` field: "Used by ROTR only, and must be 0 in every other command"
(R90). -/
def Instr.rotateField : Instr → BitVec 5
  | .nop => 0
  | .add => 0
  | .rotr n => n
  | .ssig0 => 0
  | .ssig1 => 0
  | .bsig0 => 0
  | .bsig1 => 0
  | .ch => 0
  | .maj => 0
  | .sched => 0
  | .round => 0
  | .compress => 0
  | .pad => 0
  | .init => 0
  | .serial => 0
  | .hash => 0
  | .deser => 0
  | .recoverhex => 0
  | .hexenc => 0
  | .forge => 0

/-- Decoding in the order of R97 and of steps 1 to 3 of R264. A word whose `N` is not what its
command puts there breaks "N must be 0 in every command but ROTR" (R94). Step 4, `N = 0` in ROTR, is
ROTR's own check: the word decodes, and its meaning raises BAD_ROTATE (log entry 8). -/
def decode (w : Word) : Except ErrCode Instr :=
  match assignedTo (opField w) (nField w) with
  | none => .error .illegalOpcode
  | some i =>
    if rsvField w ≠ 0 then .error .reservedField
    else if nField w ≠ i.rotateField then .error .reservedField
    else .ok i

/-- "The encoding of a command is `OP | (N << 8)`" (R98). -/
def encode (i : Instr) : Word :=
  i.opcode.setWidth 32 ||| (i.rotateField.setWidth 32 <<< 8)

/-- The mnemonics, in capitals (R91, R98). -/
def Instr.mnemonic : Instr → String
  | .nop => "NOP"
  | .add => "ADD"
  | .rotr _ => "ROTR"
  | .ssig0 => "SSIG0"
  | .ssig1 => "SSIG1"
  | .bsig0 => "BSIG0"
  | .bsig1 => "BSIG1"
  | .ch => "CH"
  | .maj => "MAJ"
  | .sched => "SCHED"
  | .round => "ROUND"
  | .compress => "COMPRESS"
  | .pad => "PAD"
  | .init => "INIT"
  | .serial => "SERIAL"
  | .hash => "HASH"
  | .deser => "DESER"
  | .recoverhex => "RECOVERHEX"
  | .hexenc => "HEXENC"
  | .forge => "FORGE"

/-- The commands that take no operand (R93). -/
def operandless : List Instr :=
  [.nop, .add, .ssig0, .ssig1, .bsig0, .bsig1, .ch, .maj, .sched, .round, .compress, .pad, .init,
    .serial, .hash, .deser, .recoverhex, .hexenc, .forge]

/-- The assembler (R98, log entry 14): a mnemonic, and the decimal operand if one is written. ROTR
takes one in `0..31`; "Amounts above 31 do not assemble"; "No other command takes an operand". -/
def assemble (mnemonic : String) (operand : Option Nat) : Option Word :=
  match operand with
  | some n => if mnemonic = "ROTR" ∧ n ≤ 31 then some (encode (.rotr (BitVec.ofNat 5 n))) else none
  | none => (operandless.find? (fun i => i.mnemonic == mnemonic)).map encode

/-- The host's probe of the decoder: the command read from a command word whose low `nbits` bits are
those of `w`. A command is one 32-bit word (R90), so there is nothing to lay out. -/
def decodeTableWord (nbits w : Nat) : Option Instr :=
  match decode (BitVec.ofNat 32 (w % 2 ^ nbits)) with
  | .ok i => some i
  | .error _ => none

end Sys2Proof
end

