-- ==== Sys2Proof/Config.lean ====
section
/-! DEFINITION. What the platform fixes and the spec leaves OPEN (spec/00_scope.md R6): constants
with no body, so that no proof can use a value of one of them. -/

namespace Sys2Proof

/-- How many 32-bit words `MSGBUF` has beyond its smallest size of 16 (log entry 4): every value the
constraints of R6 allow, and no other. -/
opaque Config.msgbufExtraWords : Fin 1073725425

/-- `MSGBUF_BYTES` (R6): "A multiple of 4, at least 64, and at most 2^32 − 0x1_0000". -/
def Config.msgbufBytes : Nat := 4 * Config.msgbufExtraWords.val + 64

/-- `BASE` (R6): the platform address of bus offset 0. "No rule depends on it." -/
opaque Config.base : Nat

/-- The core instances beyond the first (R6, R275): each has its own state and shares nothing. -/
opaque Config.extraInstances : Nat

/-- `INSTANCES` (R6): "at least 1". This model's State is one of them (log entry 4). -/
def Config.instances : Nat := Config.extraInstances + 1

/-- `CMD_LATENCY` (R6, R297) as this model sees it: how many host bus accesses may be taken between
the latch of the n-th command and its execute step. A free value (log entry 3). -/
opaque Config.cmdLatency : Nat → Nat

end Sys2Proof
end

