-- ==== Sys2Proof/Machine/State.lean ====
section
/-! DEFINITION. The whole state of the core as plain data (spec/10_state.md), the reasons it can stop
(spec/60_exceptions.md R268) and its state right after reset (spec/70_reset_and_hazards.md R291).

`⊥`, "no value", is a value the spec itself gives to cells: "A Lean model holds every cell of
unspecified reset value as `Option` and starts it at `none`" (R11). A register cell is an `Option`; a
buffer byte is `⊥` where the memory lists no entry for it (log entries 1 and 5). -/

namespace Sys2Proof.Machine

/-- The model faults (R268): the machine stops (log entry 2), no claim rests on what a part does there. Every
one is SAFE: the model stops where a real part might go on. -/
inductive Fault where
  /-- `F_BUS`, raised by a host access that is misaligned, not 32 bits wide, to a reserved offset, or
  a write to a read-only location (R62, R68, R69). Safe. -/
  | bus
  /-- `F_HAZARD`, raised by any host access but a `STATUS` read while `BUSY = 1` (R294). Safe. -/
  | hazard
  /-- `F_UNWRITTEN`, raised by a command or a host read that meets a cell holding `⊥` (R11, R265).
  Safe. -/
  | unwritten
deriving DecidableEq, Repr

/-- The refusals. No meaning of this model raises one. -/
inductive Refusal where
  /-- Raised by an arm of `exec` whose command has no meaning yet: no arm is such a one. Safe. -/
  | notModelled (mnemonic : String)
deriving DecidableEq, Repr

/-- The fields of `STATUS` (R30). Its reserved bits "always read 0", so they hold nothing. -/
structure Status where
  busy    : Bool
  done    : Bool
  err     : Bool
  errcode : BitVec 4
deriving DecidableEq, Repr

/-- Hidden state (R37): the host can never read it and no command reads what an earlier one left in
it (log entry 6). The latched command is `CMD` while `BUSY = 1` and needs no cell of its own. -/
structure Hidden where
  /-- `SNAP[0..7]`, the pre-round snapshot of the compressor. -/
  snap       : Eight (Option Word)
  /-- The round counter `t`. -/
  round      : Option (Fin 64)
  /-- The block index `j` of HASH and FORGE. -/
  blockIndex : Option Nat
  /-- The block latch of HASH and FORGE, 64 bytes. -/
  blockLatch : Vector (Option Byte) 64
deriving DecidableEq, Repr

/-- What the world outside the core does to it, one entry a step (R12, R99, R290; log entries 3, 10,
11, 12). `size` is the width of the access in bytes: only 4 is a legal one (R68). -/
inductive HostOp where
  | read  (off : Word) (size : Nat)
  | write (off : Word) (size : Nat) (v : Word)
  /-- `POLL` (R99): read `STATUS` again and again until `BUSY = 0`. -/
  | poll
  /-- The platform reset input (R290). -/
  | reset
deriving DecidableEq, Repr

/-- The byte buffers' cells (R36, R63): bytes keyed by their bus offset (R61), addresses strictly
rising; an address that is not listed holds `⊥`. -/
abbrev Memory := List Host.Cell

/-- The core's state (spec/10_state.md), then the host's side of it (the model's own, log entry 3).
The constants `ID`, `MSGCAP`, `K` and `IV` (R31, R32, R34, R35) change never and are in
Machine/Tables.lean. -/
structure State where
  /-- `CMD`: the last command word written (R29). -/
  cmd      : Word
  /-- `STATUS` (R30). -/
  status   : Status
  /-- `OPA`, `OPB`, `OPC` (R23). -/
  opa      : Option Word
  opb      : Option Word
  opc      : Option Word
  /-- `RESULT` (R24): "Reset value: `⊥`". -/
  result   : Option Word
  /-- `LEN_LO`, `LEN_HI` (R25). -/
  lenLo    : Word
  lenHi    : Word
  /-- `ORIGLEN_LO`, `ORIGLEN_HI` (R26). -/
  origLo   : Word
  origHi   : Word
  /-- `PADLEN` (R27). -/
  padlen   : Word
  /-- `HEXLEN` (R28). -/
  hexlen   : Word
  /-- `STATE[0..7]` (R21): "Reset value: `⊥` (no value) in every word". -/
  st       : Eight (Option Word)
  /-- `W[0..63]` (R33). -/
  w        : Vector (Option Word) 64
  /-- `MSGBUF`, `BLOCK`, `DIGEST`, `HEXIN`, `HEXOUT` and `PADBUF` (R36). -/
  mem      : Memory
  /-- Hidden state (R37). -/
  hidden   : Hidden
  /-- The host's accesses and the platform's resets still to come, in program order (R12, R73). -/
  inputs   : List HostOp
  /-- The words the host's reads have returned, oldest first. -/
  replies  : List Word
  /-- How many inputs are still taken before the latched command executes. -/
  delay    : Nat
  /-- How many commands have been latched: the argument of the free value `Config.cmdLatency`. -/
  commands : Nat
deriving DecidableEq, Repr

/-- The value of R291's table, field by field; the model's own last four fields start empty and at
zero (log entry 13). -/
def State.reset : State where
  cmd      := 0
  status   := ⟨false, false, false, 0⟩
  opa      := none
  opb      := none
  opc      := none
  result   := none
  lenLo    := 0
  lenHi    := 0
  origLo   := 0
  origHi   := 0
  padlen   := 0
  hexlen   := 0
  st       := ⟨none, none, none, none, none, none, none, none⟩
  w        := Vector.replicate 64 none
  mem      := []
  hidden   := ⟨⟨none, none, none, none, none, none, none, none⟩, none, none, Vector.replicate 64 none⟩
  inputs   := []
  replies  := []
  delay    := 0
  commands := 0

end Sys2Proof.Machine
end

