-- ==== Sys2Proof/Machine/Flags.lean ====
section
/-! DEFINITION. The core's only flags: the fields of `STATUS`, the word they make, and the values the
command lifecycle gives them (spec/10_state.md R30; spec/60_exceptions.md R260, R261, R263). No command
result is a flag. -/

namespace Sys2Proof.Machine

/-- The code of a hardware error (R263). -/
def errorCode : ErrCode → BitVec 4
  | .illegalOpcode => 1
  | .reservedField => 2
  | .badRotate => 3
  | .lengthRange => 4
  | .invalidDigestEncoding => 5

/-- The `STATUS` word (R30): BUSY bit 0, DONE bit 1, ERR bit 2, ERRCODE bits 11:8, the rest 0. -/
def statusWord (f : Status) : Word :=
  (BitVec.ofBool f.busy).setWidth 32
    ||| ((BitVec.ofBool f.done).setWidth 32 <<< 1)
    ||| ((BitVec.ofBool f.err).setWidth 32 <<< 2)
    ||| (f.errcode.setWidth 32 <<< 8)

/-- `STATUS` after a latch (R260). -/
def statusLatched : Status := ⟨true, false, false, 0⟩

/-- `STATUS` after a command that succeeded (R261). -/
def statusSuccess : Status := ⟨false, true, false, 0⟩

/-- `STATUS` after a command that raised the error `e` (R261). -/
def statusFailed (e : ErrCode) : Status := ⟨false, true, true, errorCode e⟩

end Sys2Proof.Machine
end

