-- ==== Sys2Proof/Machine/Ops.lean ====
section
/-! DEFINITION. The named operations over memory and registers: words and bytes, the byte buffers, the
register updates, and the command lifecycle with raising an error and its clearing (spec/00_scope.md R9,
R10; spec/20_memory.md R63, R64; spec/60_exceptions.md R260 to R262, R267). -/

namespace Sys2Proof.Machine

/-- What a command's meaning answers. -/
abbrev Result := Host.Outcome State Fault Refusal

/-! ## Words and bytes -/

/-- `BE32` (R9): "b0·2^24 + b1·2^16 + b2·2^8 + b3". -/
def be32 (b0 b1 b2 b3 : Byte) : Word :=
  BitVec.ofNat 32 (b0.toNat * 2 ^ 24 + b1.toNat * 2 ^ 16 + b2.toNat * 2 ^ 8 + b3.toNat)

/-- `BE32^-1` (R9): the bytes `x[31:24]`, `x[23:16]`, `x[15:8]`, `x[7:0]`. -/
def be32Bytes (x : Word) : List Byte :=
  [x.extractLsb' 24 8, x.extractLsb' 16 8, x.extractLsb' 8 8, x.extractLsb' 0 8]

/-- `BE64^-1` (R9): the eight bytes of `v mod 2^64`, the most significant first. -/
def be64Bytes (v : Nat) : List Byte :=
  let x := BitVec.ofNat 64 v
  be32Bytes (x.extractLsb' 32 32) ++ be32Bytes (x.extractLsb' 0 32)

/-- The big-endian words of a byte string, four bytes each (R72); fewer than four bytes at its end
make none. -/
def wordsOf : List Byte → List Word
  | b0 :: b1 :: b2 :: b3 :: rest => be32 b0 b1 b2 b3 :: wordsOf rest
  | _ => []

/-! ## Eight-slot records and cell arrays -/

/-- Slot `i` of eight: slot 0 is `a`, slot 7 is `h` (R21). -/
def eightAt {α : Type} (x : Eight α) (i : Nat) : α :=
  match i with
  | 0 => x.a
  | 1 => x.b
  | 2 => x.c
  | 3 => x.d
  | 4 => x.e
  | 5 => x.f
  | 6 => x.g
  | _ => x.h

/-- The eight slots in order. -/
def eightList {α : Type} (x : Eight α) : List α := [x.a, x.b, x.c, x.d, x.e, x.f, x.g, x.h]

/-- The same function on every slot. -/
def eightMap {α β : Type} (f : α → β) (x : Eight α) : Eight β :=
  ⟨f x.a, f x.b, f x.c, f x.d, f x.e, f x.f, f x.g, f x.h⟩

/-- A function of two on every pair of slots. -/
def eightZip {α β γ : Type} (f : α → β → γ) (x : Eight α) (y : Eight β) : Eight γ :=
  ⟨f x.a y.a, f x.b y.b, f x.c y.c, f x.d y.d, f x.e y.e, f x.f y.f, f x.g y.g, f x.h y.h⟩

/-- Eight values where all eight cells hold one. -/
def eightAll {α : Type} (x : Eight (Option α)) : Option (Eight α) :=
  match x with
  | ⟨some a, some b, some c, some d, some e, some f, some g, some h⟩ => some ⟨a, b, c, d, e, f, g, h⟩
  | _ => none

/-- An array of `n` cells written from a list: cell `i` holds the list's element `i`. -/
def cells {α : Type} (n : Nat) (l : List α) : Vector (Option α) n :=
  ⟨((List.range n).map (fun i => l[i]?)).toArray, by simp⟩

/-! ## Memory: the byte buffers -/

/-- The byte at address `a`; `none` is `⊥` (R64). -/
def Memory.read : Memory → Nat → Option Byte
  | [], _ => none
  | (k, b) :: m, a => if k = a then some b else Memory.read m a

/-- Write byte `b` at address `a`, keeping the addresses rising. -/
def Memory.write : Memory → Nat → Byte → Memory
  | [], a, b => [(a, b)]
  | (k, c) :: m, a, b =>
    if a < k then (a, b) :: (k, c) :: m
    else if a = k then (a, b) :: m
    else (k, c) :: Memory.write m a b

/-- The `n` bytes from address `a`; `none` if any of them is `⊥` (R11). -/
def Memory.readBytes (m : Memory) (a : Nat) : Nat → Option (List Byte)
  | 0 => some []
  | n + 1 =>
    match Memory.read m a, Memory.readBytes m (a + 1) n with
    | some b, some bs => some (b :: bs)
    | _, _ => none

/-- Write a byte string from address `a`. -/
def Memory.writeBytes (m : Memory) (a : Nat) : List Byte → Memory
  | [] => m
  | b :: bs => Memory.writeBytes (Memory.write m a b) (a + 1) bs

/-- The canonical form: addresses strictly rising. An unlisted address reads as no value, and no entry
can hold that, so every canonical memory has one list. -/
abbrev Memory.wf (m : Memory) : Prop := m.Pairwise (fun x y => x.1 < y.1)

/-- The six byte buffers (R36). -/
inductive Buf where
  | msgbuf
  | block
  | digest
  | hexin
  | hexout
  | padbuf
deriving DecidableEq, Repr

/-- A buffer's first offset (R61). -/
def bufBase : Buf → Nat
  | .msgbuf => 0x10000
  | .block => 0x0140
  | .digest => 0x0120
  | .hexin => 0x0180
  | .hexout => 0x01C0
  | .padbuf => 0x0300

/-- A buffer's bytes (R36). -/
def bufSize : Buf → Nat
  | .msgbuf => Config.msgbufBytes
  | .block => 64
  | .digest => 32
  | .hexin => 64
  | .hexout => 64
  | .padbuf => 72

/-- `BufRead(BUF, i)` for `i` = 0 to `n` − 1 (R64). -/
def State.bufRead (s : State) (b : Buf) (n : Nat) : Option (List Byte) :=
  Memory.readBytes s.mem (bufBase b) n

/-! ## Register updates -/

/-- `STATUS <- f`. -/
def State.setStatus (s : State) (f : Status) : State := { s with status := f }

/-- `RESULT <- v` (R24). -/
def State.setResult (s : State) (v : Word) : State := { s with result := some v }

/-- `STATE[0..7] <- x` (R21). -/
def State.setHash (s : State) (x : Eight Word) : State := { s with st := eightMap some x }

/-- `W[0..63] <- l` (R33). -/
def State.setSchedule (s : State) (l : List Word) : State := { s with w := cells 64 l }

/-- `PADLEN <- n` (R27). -/
def State.setPadlen (s : State) (n : Nat) : State := { s with padlen := BitVec.ofNat 32 n }

/-- `BufWrite(BUF, i, l[i])` for every byte of `l` (R64). -/
def State.bufWrite (s : State) (b : Buf) (l : List Byte) : State :=
  { s with mem := Memory.writeBytes s.mem (bufBase b) l }

/-- The hidden cells after a compression: `SNAP` holds its pre-round state and `t` its last round
(R37, R170; log entry 6). -/
def State.setSnap (s : State) (x : Eight Word) : State :=
  { s with hidden := { s.hidden with snap := eightMap some x, round := some 63 } }

/-- The hidden cells after HASH or FORGE: the last block's index and its bytes (R37; log entry 6). -/
def State.setBlock (s : State) (j : Nat) (blk : List Byte) : State :=
  { s with hidden := { s.hidden with blockIndex := some j, blockLatch := cells 64 blk } }

/-! ## The command lifecycle -/

/-- The latch (R260): a host write of `v` to `CMD`. It also clears a reported error: "The error stays
in `STATUS` until the host's next write to `CMD` clears it" (R267). -/
def State.latch (s : State) (v : Word) : State :=
  { s with
    cmd := v
    status := statusLatched
    delay := Config.cmdLatency s.commands
    commands := s.commands + 1 }

/-- Completion on success (R261). -/
def complete (s : State) : Result := .next (s.setStatus statusSuccess)

/-- `raise Error(e)` (R261, R262): completion with the error's code, "No other state changes". This is
the only exception the core takes: there is no handler, no saved register and no mode (R267, R272). -/
def raiseError (e : ErrCode) (s : State) : Result := .next (s.setStatus (statusFailed e))

/-- The platform reset (R290): "every piece of state holds the value of rule R291, whatever it held
before". The host's accesses to come and its record of replies are no state of the core (log entry 11). -/
def State.platformReset (s : State) : State :=
  { State.reset with inputs := s.inputs, replies := s.replies, commands := s.commands }

end Sys2Proof.Machine
end

