-- ==== Sys2Proof/Machine/Operands.lean ====
section
/-! DEFINITION. Operands: every command's are implicit in its opcode (spec/30_encoding.md R93), and each
form is read here. Step 7 of the check order (spec/60_exceptions.md R264, R265): a command that meets a
`⊥` among its operand cells is `fault F_UNWRITTEN`. -/

namespace Sys2Proof.Machine

/-- Read one operand, a register or a whole range of cells, and go on with its value. The stop is the
spec's: "any operand cell the command reads holds ⊥ -> fault F_UNWRITTEN" (R264 step 7, R265; D10, U11). -/
def withOperand {α : Type} (x : Option α) (k : α → Result) : Result :=
  match x with
  | none => .fault .unwritten
  | some v => k v

/-- `STATE[0..7]` as an operand: a value only where all eight words hold one (R265). -/
def State.hashWords (s : State) : Option (Eight Word) := eightAll s.st

/-- `BLOCK[0..63]`. -/
def State.block (s : State) : Option (List Byte) := s.bufRead .block 64

/-- `DIGEST[0..31]`. -/
def State.digest (s : State) : Option (List Byte) := s.bufRead .digest 32

/-- `HEXIN[0..63]`. -/
def State.hexin (s : State) : Option (List Byte) := s.bufRead .hexin 64

/-- `LEN`, an unsigned 64-bit byte count: `LEN_LO = LEN[31:0]`, `LEN_HI = LEN[63:32]` (R25). -/
def State.len (s : State) : Nat := s.lenHi.toNat * 2 ^ 32 + s.lenLo.toNat

/-- `ORIGLEN`, an unsigned 64-bit byte count: `ORIGLEN_LO = ORIGLEN[31:0]`, `ORIGLEN_HI =
ORIGLEN[63:32]` (R26). -/
def State.origLen (s : State) : Nat := s.origHi.toNat * 2 ^ 32 + s.origLo.toNat

/-- `MSGBUF[0..LEN−1]`, no cell at all if `LEN = 0` (R265). -/
def State.message (s : State) : Option (List Byte) := s.bufRead .msgbuf s.len

/-- `N` as a rotate amount, `zext_32(cmd[12:8])` (R92). -/
def rotateAmount (n : BitVec 5) : Nat := n.toNat

end Sys2Proof.Machine
end

