-- ==== Sys2Proof/Machine/Bus.lean ====
section
/-! DEFINITION. The host bus: the address map, reads, writes, and the inputs the outside world gives the
core (spec/20_memory.md R60 to R70; spec/70_reset_and_hazards.md R290, R294; spec/30_encoding.md R99). -/

namespace Sys2Proof.Machine

/-- What an offset of the window names (R61); the number is a word index. -/
inductive Region where
  | cmd
  | status
  | opa
  | opb
  | opc
  | result
  | lenLo
  | lenHi
  | origLo
  | origHi
  | padlen
  | hexlen
  | ident
  | msgcap
  | st (i : Nat)
  | sched (i : Nat)
  | const (i : Nat)
  | iv (i : Nat)
  | buffer (b : Buf) (j : Nat)
  | reserved
deriving DecidableEq, Repr

/-- The scalar registers' offsets (R61). -/
def scalarRegion (off : Nat) : Region :=
  match off with
  | 0x0000 => .cmd
  | 0x0004 => .status
  | 0x0008 => .opa
  | 0x000C => .opb
  | 0x0010 => .opc
  | 0x0014 => .result
  | 0x0018 => .lenLo
  | 0x001C => .lenHi
  | 0x0020 => .origLo
  | 0x0024 => .origHi
  | 0x0028 => .padlen
  | 0x002C => .hexlen
  | 0x0030 => .ident
  | 0x0034 => .msgcap
  | _ => .reserved

/-- Offsets 0x0100 to 0x01FF of the map: `STATE`, `DIGEST`, `BLOCK`, `HEXIN`, `HEXOUT` (R61). -/
def stateRegion (off : Nat) : Region :=
  if off < 0x0120 then .st ((off - 0x0100) / 4)
  else if off < 0x0140 then .buffer .digest ((off - 0x0120) / 4)
  else if off < 0x0180 then .buffer .block ((off - 0x0140) / 4)
  else if off < 0x01C0 then .buffer .hexin ((off - 0x0180) / 4)
  else .buffer .hexout ((off - 0x01C0) / 4)

/-- Offsets 0x0200 to 0xFFFF of the map: `W`, `PADBUF`, `K`, `IV` and what is reserved among them
(R61). -/
def tableRegion (off : Nat) : Region :=
  if off < 0x0300 then .sched ((off - 0x0200) / 4)
  else if off < 0x0348 then .buffer .padbuf ((off - 0x0300) / 4)
  else if off < 0x0400 then .reserved
  else if off < 0x0500 then .const ((off - 0x0400) / 4)
  else if off < 0x0520 then .iv ((off - 0x0500) / 4)
  else .reserved

/-- The address map (R61) at a word-aligned offset. -/
def region (off : Nat) : Region :=
  if off < 0x0100 then scalarRegion off
  else if off < 0x0200 then stateRegion off
  else if off < 0x10000 then tableRegion off
  else if off - 0x10000 < Config.msgbufBytes then .buffer .msgbuf ((off - 0x10000) / 4)
  else .reserved

/-- The address a platform uses for a bus offset (R6, R60). -/
def platformAddress (off : Nat) : Nat := Config.base + off

/-- A cell as a host read sees it: "if REG = ⊥ then fault F_UNWRITTEN else return REG" (R66, R11). -/
def readCell (x : Option Word) : Except Fault Word :=
  match x with
  | none => .error .unwritten
  | some v => .ok v

/-- The packed word `j` of a byte buffer: `BE32` of its four bytes, "and is `fault F_UNWRITTEN` if any of
the four cells holds `⊥`" (R65). -/
def readBuffer (m : Memory) (b : Buf) (j : Nat) : Except Fault Word :=
  match Memory.readBytes m (bufBase b + 4 * j) 4 with
  | some [b0, b1, b2, b3] => .ok (be32 b0 b1 b2 b3)
  | _ => .error .unwritten

/-- The last lines of `MemRead` (R66): the value of what the offset names. -/
def readRegion (s : State) : Region → Except Fault Word
  | .cmd => .ok s.cmd
  | .status => .ok (statusWord s.status)
  | .opa => readCell s.opa
  | .opb => readCell s.opb
  | .opc => readCell s.opc
  | .result => readCell s.result
  | .lenLo => .ok s.lenLo
  | .lenHi => .ok s.lenHi
  | .origLo => .ok s.origLo
  | .origHi => .ok s.origHi
  | .padlen => .ok s.padlen
  | .hexlen => .ok s.hexlen
  | .ident => .ok idWord
  | .msgcap => .ok msgcapWord
  | .st i => readCell (eightAt s.st i)
  | .sched i => readCell (s.w[i]?).join
  | .const i => readCell roundConstants[i]?
  | .iv i => .ok (eightAt initVector i)
  | .buffer b j => readBuffer s.mem b j
  | .reserved => .error .bus

/-- `MemRead(off, size)` (R66): the checks in its order, then the region. An access that is not 32 bits
wide is `F_BUS` (R68, log entry 10). -/
def memRead (s : State) (off : Word) (size : Nat) : Except Fault Word :=
  if size ≠ 4 ∨ off.toNat % 4 ≠ 0 then .error .bus
  else if s.status.busy = true ∧ off ≠ 0x0004 then .error .hazard
  else readRegion s (region off.toNat)

/-- The last lines of `MemWrite` (R67): a write to a reserved or read-only region is `F_BUS` (R69). -/
def writeRegion (s : State) (v : Word) : Region → Except Fault State
  | .cmd => .ok (s.latch v)
  | .status => .error .bus
  | .opa => .ok { s with opa := some v }
  | .opb => .ok { s with opb := some v }
  | .opc => .ok { s with opc := some v }
  | .result => .error .bus
  | .lenLo => .ok { s with lenLo := v }
  | .lenHi => .ok { s with lenHi := v }
  | .origLo => .ok { s with origLo := v }
  | .origHi => .ok { s with origHi := v }
  | .padlen => .error .bus
  | .hexlen => .ok { s with hexlen := v }
  | .ident => .error .bus
  | .msgcap => .error .bus
  | .st _ => .error .bus
  | .sched _ => .error .bus
  | .const _ => .error .bus
  | .iv _ => .error .bus
  | .buffer b j =>
    match b with
    | .hexout => .error .bus
    | .padbuf => .error .bus
    | .msgbuf => .ok { s with mem := Memory.writeBytes s.mem (bufBase .msgbuf + 4 * j) (be32Bytes v) }
    | .block => .ok { s with mem := Memory.writeBytes s.mem (bufBase .block + 4 * j) (be32Bytes v) }
    | .digest => .ok { s with mem := Memory.writeBytes s.mem (bufBase .digest + 4 * j) (be32Bytes v) }
    | .hexin => .ok { s with mem := Memory.writeBytes s.mem (bufBase .hexin + 4 * j) (be32Bytes v) }
  | .reserved => .error .bus

/-- `MemWrite(off, size, v)` (R67). While `BUSY = 1` every write is `F_HAZARD`, a second `CMD` write
among them (R294). -/
def memWrite (s : State) (off : Word) (size : Nat) (v : Word) : Except Fault State :=
  if size ≠ 4 ∨ off.toNat % 4 ≠ 0 then .error .bus
  else if s.status.busy = true then .error .hazard
  else writeRegion s v (region off.toNat)

/-- A host read: its word goes to the host's record, and nothing of the core changes (R66, R70). -/
def hostRead (s : State) (off : Word) (size : Nat) : Result :=
  match memRead s off size with
  | .ok v => .next { s with replies := s.replies ++ [v] }
  | .error f => .fault f

/-- A host write. -/
def hostWrite (s : State) (off : Word) (size : Nat) (v : Word) : Result :=
  match memWrite s off size v with
  | .ok t => .next t
  | .error f => .fault f

/-- One read of `POLL` (R99): it stays the host's next access while `BUSY = 1`. -/
def hostPoll (s : State) : Result :=
  hostRead { s with inputs := if s.status.busy then .poll :: s.inputs else s.inputs } 0x0004 4

/-- The effect of one input, already taken from the queue. -/
def takeInput (op : HostOp) (s : State) : Result :=
  match op with
  | .read off size => hostRead s off size
  | .write off size v => hostWrite s off size v
  | .poll => hostPoll s
  | .reset => .next s.platformReset

/-- The turn of the world outside: its next access or reset, in program order (R12, R73). With none to
come the core is idle "with every register holding its value" (R277, log entry 9). An access taken while
a command waits uses up one unit of its delay (log entry 3). -/
def hostTurn (s : State) : Result :=
  match s.inputs with
  | [] => .next s
  | op :: rest => takeInput op { s with inputs := rest, delay := s.delay - 1 }

/-- Whether the next step is the core's: "It is enabled exactly when `BUSY = 1`" (R260). It is taken
when the command's delay is used up, or when the outside world has nothing to do, so that an enabled
execute step is eventually taken (R297, log entry 3). -/
def State.coreTurn (s : State) : Bool := s.status.busy && (s.delay == 0 || s.inputs.isEmpty)

end Sys2Proof.Machine
end

