-- ==== Sys2Proof/Machine/BitOps.lean ====
section
/-! DEFINITION. The bitwise primitives and their commands (spec/40_bitops.md R120 to R128). Each writes
`RESULT` and nothing else but `STATUS`. -/

namespace Sys2Proof.Machine

/-- `add_mod32` (R121). -/
def addMod32 (a b : Word) : Word := a + b

/-- `rotr(x, n)`, for `1 ≤ n ≤ 31` (R122). -/
def rotr (x : Word) (n : Nat) : Word := (x >>> n) ||| (x <<< (32 - n))

/-- `little_sigma0` (R123). -/
def littleSigma0 (x : Word) : Word := rotr x 7 ^^^ rotr x 18 ^^^ (x >>> 3)

/-- `little_sigma1` (R124). -/
def littleSigma1 (x : Word) : Word := rotr x 17 ^^^ rotr x 19 ^^^ (x >>> 10)

/-- `big_sigma0` (R125). -/
def bigSigma0 (x : Word) : Word := rotr x 2 ^^^ rotr x 13 ^^^ rotr x 22

/-- `big_sigma1` (R126). -/
def bigSigma1 (x : Word) : Word := rotr x 6 ^^^ rotr x 11 ^^^ rotr x 25

/-- `choice` (R127). -/
def choice (x y z : Word) : Word := (x &&& y) ^^^ (~~~x &&& z)

/-- `majority` (R128). -/
def majority (x y z : Word) : Word := (x &&& y) ^^^ (x &&& z) ^^^ (y &&& z)

/-- A primitive of `OPA` alone. -/
def primitive1 (f : Word → Word) (s : State) : Result :=
  withOperand s.opa fun x => complete (s.setResult (f x))

/-- A primitive of `OPA`, `OPB` and `OPC`. -/
def primitive3 (f : Word → Word → Word → Word) (s : State) : Result :=
  withOperand s.opa fun x =>
  withOperand s.opb fun y =>
  withOperand s.opc fun z => complete (s.setResult (f x y z))

/-- ADD (R121). -/
def execAdd (s : State) : Result :=
  withOperand s.opa fun a =>
  withOperand s.opb fun b => complete (s.setResult (addMod32 a b))

/-- ROTR (R122): "`N = 0` raises `BAD_ROTATE` (code 3), and `RESULT` is unchanged"; that check comes
before any operand is read (R264, step 4). -/
def execRotr (n : BitVec 5) (s : State) : Result :=
  if n = 0 then raiseError .badRotate s
  else primitive1 (fun x => rotr x (rotateAmount n)) s

/-- SSIG0 (R123). -/
def execSsig0 (s : State) : Result := primitive1 littleSigma0 s

/-- SSIG1 (R124). -/
def execSsig1 (s : State) : Result := primitive1 littleSigma1 s

/-- BSIG0 (R125). -/
def execBsig0 (s : State) : Result := primitive1 bigSigma0 s

/-- BSIG1 (R126). -/
def execBsig1 (s : State) : Result := primitive1 bigSigma1 s

/-- CH (R127). -/
def execCh (s : State) : Result := primitive3 choice s

/-- MAJ (R128). -/
def execMaj (s : State) : Result := primitive3 majority s

end Sys2Proof.Machine
end

