-- ==== Sys2Proof/Machine/Round.lean ====
section
/-! DEFINITION. The compression round and ROUND (spec/42_round.md R160, R161). -/

namespace Sys2Proof.Machine

/-- `round(S, k, w)` (R160): every right-hand side reads the pre-round values. -/
def compressionRound (x : Eight Word) (k w : Word) : Eight Word :=
  let t1 := x.h + bigSigma1 x.e + choice x.e x.f x.g + k + w
  let t2 := bigSigma0 x.a + majority x.a x.b x.c
  ⟨t1 + t2, x.a, x.b, x.c, x.d + t1, x.e, x.f, x.g⟩

/-- ROUND (R161): one round on `STATE`, with `k = OPA` and `w = OPB`. -/
def execRound (s : State) : Result :=
  withOperand s.hashWords fun x =>
  withOperand s.opa fun k =>
  withOperand s.opb fun w => complete (s.setHash (compressionRound x k w))

end Sys2Proof.Machine
end

