-- ==== Sys2Proof/Machine/Schedule.lean ====
section
/-! DEFINITION. The message-schedule expander and SCHED (spec/41_schedule.md R150, R151). -/

namespace Sys2Proof.Machine

/-- Word `i` of the schedule from the words before it, where `i` is how many there are (R150):
`w[i] = w[i-16] + little_sigma0(w[i-15]) + w[i-7] + little_sigma1(w[i-2])`. -/
def nextScheduleWord (w : List Word) : Word :=
  let i := w.length
  w.getD (i - 16) 0 + littleSigma0 (w.getD (i - 15) 0) + w.getD (i - 7) 0
    + littleSigma1 (w.getD (i - 2) 0)

/-- Append `n` more schedule words. -/
def expandSchedule : Nat → List Word → List Word
  | 0, w => w
  | n + 1, w => expandSchedule n (w ++ [nextScheduleWord w])

/-- `schedule(blk)` (R150): the block's 16 big-endian words, then words 16 to 63. -/
def schedule (blk : List Byte) : List Word := expandSchedule 48 (wordsOf blk)

/-- SCHED (R151): expand `BLOCK` into `W`. -/
def execSched (s : State) : Result :=
  withOperand s.block fun blk => complete (s.setSchedule (schedule blk))

end Sys2Proof.Machine
end

