-- ==== Sys2Proof/Machine/Compressor.lean ====
section
/-! DEFINITION. The 64-round compressor with its feed-forward, and COMPRESS (spec/43_compressor.md R170,
R171). -/

namespace Sys2Proof.Machine

/-- What a compression leaves: the new state, the schedule it used, and `SNAP`. -/
structure Compressed where
  state    : Eight Word
  schedule : List Word
  snap     : Eight Word
deriving DecidableEq, Repr

/-- Rounds 0 to 63 in order, round `t` with `K[t]` and schedule word `t` (R170). -/
def sixtyFourRounds (x : Eight Word) (w : List Word) : Eight Word :=
  (roundConstants.zip w).foldl (fun t kw => compressionRound t kw.1 kw.2) x

/-- `compress(S, blk)` (R170): expand, snapshot, 64 rounds, then the Davies–Meyer feed-forward, each
snapshotted word added back modulo 2^32. -/
def compress (x : Eight Word) (blk : List Byte) : Compressed :=
  let w := schedule blk
  { state := eightZip addMod32 (sixtyFourRounds x w) x
    schedule := w
    snap := x }

/-- COMPRESS (R171): compress `BLOCK` into `STATE`, leaving the schedule in `W`. -/
def execCompress (s : State) : Result :=
  withOperand s.hashWords fun x =>
  withOperand s.block fun blk =>
    let r := compress x blk
    complete (((s.setSchedule r.schedule).setHash r.state).setSnap r.snap)

end Sys2Proof.Machine
end

