-- ==== Sys2Proof/Machine/Control.lean ====
section
/-! DEFINITION. The control command NOP (spec/47_control.md R250). -/

namespace Sys2Proof.Machine

/-- NOP (R250): "complete with no effect". -/
def execNop (s : State) : Result := complete s

end Sys2Proof.Machine
end

