-- ==== Sys2Proof/Machine/Padding.lean ====
section
/-! DEFINITION. The padding stage and PAD (spec/44_padding.md R180, R182, R183; the source's conflicting
lengths are settled by spec/90_conflicts.md C1 to C5). -/

namespace Sys2Proof.Machine

/-- `z = (55 − L) mod 64`, in `[0, 63]` (R180). -/
def padZeros (len : Nat) : Nat := ((55 - (len : Int)) % 64).toNat

/-- `pad(L)` (R180): `0x80`, `z` zero bytes, and the bit length modulo 2^64 as 8 big-endian bytes
(R182). -/
def pad (len : Nat) : List Byte :=
  0x80 :: List.replicate (padZeros len) 0 ++ be64Bytes (8 * len % 2 ^ 64)

/-- `PADBUF[0..71]` for the padding `p`: "unused tail reads as zero" (R183). -/
def padbufBytes (p : List Byte) : List Byte := p ++ List.replicate (72 - p.length) 0

/-- Write `pad(L)` to `PADBUF`, all 72 bytes, and its length to `PADLEN` (R183). -/
def State.setPadding (s : State) (len : Nat) : State :=
  (s.bufWrite .padbuf (padbufBytes (pad len))).setPadlen (pad len).length

/-- PAD (R183): the padding for `LEN`. "PAD cannot fail on any `LEN`". -/
def execPad (s : State) : Result := complete (s.setPadding s.len)

end Sys2Proof.Machine
end

