-- ==== Sys2Proof/Machine/Hasher.lean ====
section
/-! DEFINITION. Initialization, the state serializer and the hash driver: INIT, SERIAL and HASH
(spec/45_hasher.md R200 to R204). -/

namespace Sys2Proof.Machine

/-- `serialize(S)` (R201): each of the eight words as 4 big-endian bytes. -/
def serialize (x : Eight Word) : List Byte := (eightList x).flatMap be32Bytes

/-- The 64-byte blocks of a buffer, in order: block `j` is `buf[64j .. 64j+64)` (R203). -/
def blocksOf (buf : List Byte) : List (List Byte) :=
  (List.range (buf.length / 64)).map fun j => (buf.drop (64 * j)).take 64

/-- `for j in order: (S, w) = compress(S, block j)` (R203, R226): what the last compression leaves. -/
def compressBlocks (x : Eight Word) (blks : List (List Byte)) : Compressed :=
  blks.foldl (fun r blk => compress r.state blk) ⟨x, [], x⟩

/-- The blocks that `hash(m)` compresses: those of `m ‖ pad(|m|)` (R203). -/
def hashBlocks (m : List Byte) : List (List Byte) := blocksOf (m ++ pad m.length)

/-- `hash(m)` (R203), with the final state and the last schedule. -/
def hashRun (m : List Byte) : Compressed := compressBlocks initVector (hashBlocks m)

/-- The digest of `hash(m)` (R203). -/
def hashDigest (m : List Byte) : List Byte := serialize (hashRun m).state

/-- What HASH and FORGE leave of their compressions: `W`, `STATE`, `DIGEST` and the hidden cells (R204,
R227). -/
def State.setCompressed (s : State) (r : Compressed) (blks : List (List Byte)) : State :=
  ((((s.setSchedule r.schedule).setHash r.state).bufWrite .digest (serialize r.state)).setSnap
    r.snap).setBlock (blks.length - 1) (blks.getLastD [])

/-- INIT (R200): "`STATE[0..7] <- IV[0..7]`". -/
def execInit (s : State) : Result := complete (s.setHash initVector)

/-- SERIAL (R202): serialize `STATE` into `DIGEST`. -/
def execSerial (s : State) : Result :=
  withOperand s.hashWords fun x => complete (s.bufWrite .digest (serialize x))

/-- HASH (R204): hash the first `LEN` bytes of `MSGBUF`. The length check comes before any operand cell
is read (R264). -/
def execHash (s : State) : Result :=
  if Config.msgbufBytes < s.len then raiseError .lengthRange s
  else
    withOperand s.message fun m =>
      complete ((s.setPadding s.len).setCompressed (hashRun m) (hashBlocks m))

end Sys2Proof.Machine
end

