-- ==== Sys2Proof/Machine/LengthExtension.lean ====
section
/-! DEFINITION. The length-extension engine: DESER, the hex codec, RECOVERHEX, HEXENC and FORGE
(spec/46_length_extension.md R220 to R227). -/

namespace Sys2Proof.Machine

/-- `deserialize(d)` (R220): `S[i] = BE32(d[4i], d[4i+1], d[4i+2], d[4i+3])`. -/
def deserialize (d : List Byte) : Eight Word :=
  let w := wordsOf d
  ⟨w.getD 0 0, w.getD 1 0, w.getD 2 0, w.getD 3 0, w.getD 4 0, w.getD 5 0, w.getD 6 0, w.getD 7 0⟩

/-- `nib(c)` (R222): the value of an ASCII hex character of either case, `none` if it is not one. -/
def nib (c : Byte) : Option Byte :=
  if 0x30 ≤ c ∧ c ≤ 0x39 then some (c - 0x30)
  else if 0x61 ≤ c ∧ c ≤ 0x66 then some (c - 0x61 + 10)
  else if 0x41 ≤ c ∧ c ≤ 0x46 then some (c - 0x41 + 10)
  else none

/-- Characters in pairs, the first the high nibble; `none` if one is not hex. -/
def hexPairs : List Byte → Option (List Byte)
  | [] => some []
  | [_] => none
  | hi :: lo :: rest =>
    match nib hi, nib lo, hexPairs rest with
    | some x, some y, some d => some ((x * 16 + y) :: d)
    | _, _, _ => none

/-- `hex_decode(h)` (R222): `none` is InvalidDigestEncoding. -/
def hexDecode (h : List Byte) : Option (List Byte) :=
  if h.length ≠ 64 then none else hexPairs h

/-- `hexch(v)` (R223), lower case. -/
def hexch (v : Byte) : Byte := if v < 10 then 0x30 + v else 0x61 + v - 10

/-- `hex_encode(d)` (R223): two characters a byte, the high nibble first. -/
def hexEncode (d : List Byte) : List Byte :=
  d.flatMap fun (b : Byte) => [hexch (b >>> 4), hexch (b &&& 0xF)]

/-- `E = L0 + |pad(L0)| + |s|`, unbounded (R226). -/
def extendedLength (origLen suffixLen : Nat) : Nat := origLen + (pad origLen).length + suffixLen

/-- The blocks that `forge` compresses: those of `s ‖ pad(E)` (R226). -/
def forgeBlocks (origLen : Nat) (suffix : List Byte) : List (List Byte) :=
  blocksOf (suffix ++ pad (extendedLength origLen suffix.length))

/-- The continuation of `forge` from the decoded digest `d` (R226, steps 1 to 4). -/
def forgeRun (d : List Byte) (origLen : Nat) (suffix : List Byte) : Compressed :=
  compressBlocks (deserialize d) (forgeBlocks origLen suffix)

/-- The hex digest of `forge(h, L0, s)` (R226); `none` is InvalidDigestEncoding. -/
def forge (h : List Byte) (origLen : Nat) (suffix : List Byte) : Option (List Byte) :=
  (hexDecode h).map fun d => hexEncode (serialize (forgeRun d origLen suffix).state)

/-- DESER (R221): rebuild `STATE` from `DIGEST`. -/
def execDeser (s : State) : Result :=
  withOperand s.digest fun d => complete (s.setHash (deserialize d))

/-- RECOVERHEX (R224): rebuild `STATE` from the hex string in `HEXIN`; its checks in the order of
R264, steps 6 to 8. -/
def execRecoverhex (s : State) : Result :=
  if s.hexlen ≠ 64 then raiseError .invalidDigestEncoding s
  else
    withOperand s.hexin fun h =>
      match hexDecode h with
      | none => raiseError .invalidDigestEncoding s
      | some d => complete (s.setHash (deserialize d))

/-- HEXENC (R225): hex-encode `DIGEST` into `HEXOUT`. -/
def execHexenc (s : State) : Result :=
  withOperand s.digest fun d => complete (s.bufWrite .hexout (hexEncode d))

/-- FORGE (R227), its checks in the order of R264, steps 5 to 8: "all reads before any value check". -/
def execForge (s : State) : Result :=
  if Config.msgbufBytes < s.len then raiseError .lengthRange s
  else if s.hexlen ≠ 64 then raiseError .invalidDigestEncoding s
  else
    withOperand s.hexin fun h =>
    withOperand s.message fun x =>
      match hexDecode h with
      | none => raiseError .invalidDigestEncoding s
      | some d =>
        let r := forgeRun d s.origLen x
        complete (((s.setPadding (extendedLength s.origLen x.length)).setCompressed r
          (forgeBlocks s.origLen x)).bufWrite .hexout (hexEncode (serialize r.state)))

end Sys2Proof.Machine
end

