-- ==== Sys2Proof/Machine/Dispatch.lean ====
section
/-! DEFINITION. One arm per command: each calls its meaning (spec/30_encoding.md R91). -/

namespace Sys2Proof.Machine

def exec (i : Instr) (s : State) : Host.Outcome State Fault Refusal :=
  match i with
  | .nop => Sys2Proof.Machine.execNop s
  | .add => Sys2Proof.Machine.execAdd s
  | .rotr n => Sys2Proof.Machine.execRotr n s
  | .ssig0 => Sys2Proof.Machine.execSsig0 s
  | .ssig1 => Sys2Proof.Machine.execSsig1 s
  | .bsig0 => Sys2Proof.Machine.execBsig0 s
  | .bsig1 => Sys2Proof.Machine.execBsig1 s
  | .ch => Sys2Proof.Machine.execCh s
  | .maj => Sys2Proof.Machine.execMaj s
  | .sched => Sys2Proof.Machine.execSched s
  | .round => Sys2Proof.Machine.execRound s
  | .compress => Sys2Proof.Machine.execCompress s
  | .pad => Sys2Proof.Machine.execPad s
  | .init => Sys2Proof.Machine.execInit s
  | .serial => Sys2Proof.Machine.execSerial s
  | .hash => Sys2Proof.Machine.execHash s
  | .deser => Sys2Proof.Machine.execDeser s
  | .recoverhex => Sys2Proof.Machine.execRecoverhex s
  | .hexenc => Sys2Proof.Machine.execHexenc s
  | .forge => Sys2Proof.Machine.execForge s

end Sys2Proof.Machine
end

