-- ==== Sys2Proof/Machine/Execute.lean ====
section
/-! DEFINITION. The execute step of the core (spec/60_exceptions.md R260, R264). -/

namespace Sys2Proof.Machine

/-- Run the latched command "to completion as one indivisible step: decode, the checks of rule R264,
then the command's rule, then the completion of rule R261" (R260). -/
def executeLatched (s : State) : Result :=
  match decode s.cmd with
  | .error e => raiseError e s
  | .ok i => exec i s

end Sys2Proof.Machine
end

