-- ==== Sys2Proof/Machine/Step.lean ====
section
/-! DEFINITION. One step of the whole machine: of the core, or of the world outside it
(spec/00_scope.md R12; spec/20_memory.md R73). -/

namespace Sys2Proof.Machine

/-- The two agents take turns; `State.coreTurn` says whose turn it is. -/
def step (s : State) : Host.Outcome State Fault Refusal :=
  if s.coreTurn then executeLatched s else hostTurn s

/-- The host's probe of a command: the state after a latch of the word (R260) whose execute step is the
very next one. The core fetches nothing (R22): its "next instruction" is the latched command word. -/
def State.withFetchWord (s : State) (nbits w : Nat) : State :=
  { s with cmd := BitVec.ofNat 32 (w % 2 ^ nbits), status := statusLatched, delay := 0 }

end Sys2Proof.Machine
end

