-- ==== Sys2Proof/Machine/Programs.lean ====
section
/-! DEFINITION. The host notation and the host macros as lists of bus accesses, for the queue the step
reads (spec/30_encoding.md R99 to R107). A macro whose end depends on a reply comes in two parts: what
the host asks first, and what it does on the reply. -/

namespace Sys2Proof.Machine

/-- `WR off, v` (R99). -/
def wr (off : Nat) (v : Word) : HostOp := .write (BitVec.ofNat 32 off) 4 v

/-- `RD off -> x` (R99); `x` is the reply. -/
def rd (off : Nat) : HostOp := .read (BitVec.ofNat 32 off) 4

/-- `CMD m` (R100). -/
def command (i : Instr) : List HostOp := [wr 0x0000 (encode i), .poll]

/-- `WRBYTES off, s` (R101): whole words, the last one filled with zero bytes. -/
def wrBytes (off : Nat) (x : List Byte) : List HostOp :=
  (List.range ((x.length + 3) / 4)).map fun j =>
    wr (off + 4 * j)
      (be32 (x.getD (4 * j) 0) (x.getD (4 * j + 1) 0) (x.getD (4 * j + 2) 0) (x.getD (4 * j + 3) 0))

/-- `RDBYTES off, n` (R102): the reads. -/
def rdBytes (off n : Nat) : List HostOp :=
  (List.range ((n + 3) / 4)).map fun j => rd (off + 4 * j)

/-- `RDBYTES off, n -> s` (R102): the bytes of its replies, the first `n` of them. -/
def repliedBytes (replies : List Word) (n : Nat) : List Byte := (replies.flatMap be32Bytes).take n

/-- `WRLEN off, L` (R102), for `L < 2^64`. -/
def wrLen (off len : Nat) : List HostOp :=
  [wr off (BitVec.ofNat 32 len), wr (off + 4) (BitVec.ofNat 32 (len / 2 ^ 32))]

/-- The string length as it goes to `HEXLEN`: "a length of 2^32 or more is written as 2^32-1" (R106). -/
def saturatedLength (n : Nat) : Word := BitVec.ofNat 32 (min n (2 ^ 32 - 1))

/-- `HOST_HASH(m)` (R105); the digest is the last 32 replied bytes. -/
def hostHash (m : List Byte) : List HostOp :=
  wrBytes 0x10000 m ++ wrLen 0x0018 m.length ++ command .hash ++ rdBytes 0x0120 32

/-- `HOST_RECOVER_STATE(h)` (R106) up to its read of `STATUS`. -/
def hostRecoverState (h : List Byte) : List HostOp :=
  wrBytes 0x0180 (h.take 64) ++ [wr 0x002C (saturatedLength h.length)] ++ command .recoverhex
    ++ [rd 0x0004]

/-- `HOST_RECOVER_STATE` on the `STATUS` it read: `none` is InvalidDigestEncoding (R106). -/
def hostRecoverStateRest (st : Word) : Option (List HostOp) :=
  if st.getLsbD 2 then none else some ((List.range 8).map fun i => rd (0x0100 + 4 * i))

/-- `HOST_FORGE(h, L0, s)` (R107) up to its read of `STATUS`. -/
def hostForge (h : List Byte) (origLen : Nat) (suffix : List Byte) : List HostOp :=
  wrBytes 0x0180 (h.take 64) ++ [wr 0x002C (saturatedLength h.length)] ++ wrLen 0x0020 origLen
    ++ wrBytes 0x10000 suffix ++ wrLen 0x0018 suffix.length ++ command .forge ++ [rd 0x0004]

/-- `HOST_FORGE` on the `STATUS` it read: `none` is InvalidDigestEncoding (R107). -/
def hostForgeRest (st : Word) : Option (List HostOp) :=
  if st.getLsbD 2 then none else some (rdBytes 0x01C0 64)

end Sys2Proof.Machine
end

