-- ==== Sys2Proof/Safety.lean ====
section
/-! DEFINITION. What counts as a safe run: the boot requirements under which a command meets no fault
(spec/70_reset_and_hazards.md R293; spec/60_exceptions.md R264, R265), and the invariant of the machine's
state, clause by clause from the rules that say it. -/

namespace Sys2Proof.Machine

/-- Whether steps 4 to 6 of the check order find an error (R264), so that no operand cell is read. -/
def turnedAway (i : Instr) (s : State) : Bool :=
  match i with
  | .nop => false
  | .add => false
  | .rotr n => n == 0
  | .ssig0 => false
  | .ssig1 => false
  | .bsig0 => false
  | .bsig1 => false
  | .ch => false
  | .maj => false
  | .sched => false
  | .round => false
  | .compress => false
  | .pad => false
  | .init => false
  | .serial => false
  | .hash => decide (Config.msgbufBytes < s.len)
  | .deser => false
  | .recoverhex => s.hexlen != 64
  | .hexenc => false
  | .forge => decide (Config.msgbufBytes < s.len) || s.hexlen != 64

/-- Whether every operand cell of a command holds a value: the table of R265. -/
def operandsHeld (i : Instr) (s : State) : Bool :=
  match i with
  | .nop => true
  | .add => s.opa.isSome && s.opb.isSome
  | .rotr _ => s.opa.isSome
  | .ssig0 => s.opa.isSome
  | .ssig1 => s.opa.isSome
  | .bsig0 => s.opa.isSome
  | .bsig1 => s.opa.isSome
  | .ch => s.opa.isSome && s.opb.isSome && s.opc.isSome
  | .maj => s.opa.isSome && s.opb.isSome && s.opc.isSome
  | .sched => s.block.isSome
  | .round => s.hashWords.isSome && s.opa.isSome && s.opb.isSome
  | .compress => s.hashWords.isSome && s.block.isSome
  | .pad => true
  | .init => true
  | .serial => s.hashWords.isSome
  | .hash => s.message.isSome
  | .deser => s.digest.isSome
  | .recoverhex => s.hexin.isSome
  | .hexenc => s.digest.isSome
  | .forge => s.hexin.isSome && s.message.isSome

/-- `STATUS` as the lifecycle leaves it (R260, R261, R263): idle after reset, latched, succeeded, or
failed with one of the five codes. -/
def Status.lawful (f : Status) : Bool :=
  f == ⟨false, false, false, 0⟩ || f == statusLatched || f == statusSuccess
    || f == statusFailed .illegalOpcode || f == statusFailed .reservedField
    || f == statusFailed .badRotate || f == statusFailed .lengthRange
    || f == statusFailed .invalidDigestEncoding

/-- Whether an address is a cell of a byte buffer (R36, R61). -/
def inBuffer (a : Nat) : Bool :=
  [Buf.msgbuf, Buf.block, Buf.digest, Buf.hexin, Buf.hexout, Buf.padbuf].any fun b =>
    decide (bufBase b ≤ a) && decide (a - bufBase b < bufSize b)

/-- Eight cells that hold a value all, or none of them. -/
def eightUniform {α : Type} (x : Eight (Option α)) : Bool :=
  (eightList x).all Option.isSome || (eightList x).all Option.isNone

/-- The invariant of the core's state: the memory is canonical and lists nothing but buffer cells,
`STATUS` is lawful, `PADLEN` is 0 or "always in `[9, 72]` once written" with `PADBUF` whole (R27, R183),
and `STATE` and `W` hold a value in every word or in none (every rule that writes one writes all of
it). -/
structure State.Lawful (s : State) : Prop where
  memory    : Memory.wf s.mem
  mapped    : ∀ c ∈ s.mem, inBuffer c.1 = true
  status    : s.status.lawful = true
  padlen    : s.padlen = 0 ∨ (9 ≤ s.padlen.toNat ∧ s.padlen.toNat ≤ 72 ∧
                (s.bufRead .padbuf 72).isSome = true)
  hash      : eightUniform s.st = true
  schedule  : s.w.all Option.isSome = true ∨ s.w.all Option.isNone = true

end Sys2Proof.Machine
end

