-- ==== Sys2Proof/Certificates/Slice0/Obligations.lean ====
section
/-! DEFINITION. The statements for the provers: what the numbered rules of the spec say the core does.
`⟨false, true, false, 0⟩` is `STATUS` after success and `⟨false, true, true, c⟩` after the error with
code `c` (R261). A next state written as a record update of the old one says its whole frame: every
field not named is unchanged. Offsets are those of R61. -/

open Sys2Proof Sys2Proof.Machine

/-! ## Encoding -/

/-- Every command has exactly one word, and every word that decodes is the word of its command (R90,
R91, R98). That word 2 decodes, to ROTR 0, is the model's choice: R97 raises BAD_ROTATE in the decoder,
the model in ROTR's meaning (log entry 8). -/
def Obligations.DecodeGivesCommandIffWordIsItsEncoding : Prop :=
  ∀ (w : Word) (i : Instr), decode w = .ok i ↔ w = encode i

/-- R94, R95, R97 on the core: the outcome of every latched word, in the decoder's order. -/
def Obligations.LatchedWordIsCheckedInDecodeOrder : Prop :=
  ∀ s : State, s.coreTurn = true →
    let op := s.cmd.toNat % 256
    let n := s.cmd.toNat / 256 % 32
    let rsv := s.cmd.toNat / 8192
    let assigned := [0x00, 0x01, 0x02, 0x03, 0x04, 0x05, 0x06, 0x07, 0x08, 0x10, 0x11, 0x12, 0x18,
      0x20, 0x21, 0x22, 0x30, 0x31, 0x32, 0x33]
    (op ∉ assigned → step s = .next { s with status := ⟨false, true, true, 1⟩ }) ∧
    (op ∈ assigned → rsv ≠ 0 → step s = .next { s with status := ⟨false, true, true, 2⟩ }) ∧
    (op ∈ assigned → rsv = 0 → op ≠ 0x02 → n ≠ 0 →
      step s = .next { s with status := ⟨false, true, true, 2⟩ }) ∧
    (op = 0x02 → rsv = 0 → n = 0 → step s = .next { s with status := ⟨false, true, true, 3⟩ }) ∧
    (op ∈ assigned → rsv = 0 → (op ≠ 0x02 → n = 0) → (op = 0x02 → n ≠ 0) →
      ∃ i : Instr, i.wf = true ∧ encode i = s.cmd ∧ step s = exec i s)

/-- A few command words written out from R90 and R91, and what they decode to. -/
def Obligations.WordsOfEachFamilyDecode : Prop :=
  decode 0b00000000000000000000000000000000 = .ok .nop ∧
  decode 0b00000000000000000000011100000010 = .ok (.rotr 7) ∧
  decode 0b00000000000000000000000000001000 = .ok .maj ∧
  decode 0b00000000000000000000000000010000 = .ok .sched ∧
  decode 0b00000000000000000000000000010001 = .ok .round ∧
  decode 0b00000000000000000000000000010010 = .ok .compress ∧
  decode 0b00000000000000000000000000011000 = .ok .pad ∧
  decode 0b00000000000000000000000000100010 = .ok .hash ∧
  decode 0b00000000000000000000000000110011 = .ok .forge

/-- R98 without its text tokens (log entry 14): which mnemonics and operands assemble, and to what. -/
def Obligations.AssemblerTakesRotateAmountsUpToThirtyOne : Prop :=
  (∀ n : Nat, n ≤ 31 → assemble "ROTR" (some n) = some (BitVec.ofNat 32 (2 + 256 * n))) ∧
  (∀ n : Nat, 31 < n → assemble "ROTR" (some n) = none) ∧
  assemble "ROTR" none = none ∧
  (∀ i : Instr, i.mnemonic ≠ "ROTR" →
    assemble i.mnemonic none = some (encode i) ∧ ∀ n : Nat, assemble i.mnemonic (some n) = none)

/-! ## The step and the command lifecycle -/

/-- R260's execute step: on the core's turn a step is the meaning of the command its word decodes to.
The step adds nothing around it: there is no program counter (R22). The host's probe latches a word as
R260 does, and the very next step runs it (log entry 7). -/
def Obligations.StepRunsTheDecodedCommand : Prop :=
  ∀ (s : State) (i : Instr),
    (s.coreTurn = true → decode s.cmd = .ok i → step s = exec i s) ∧
    step (s.withFetchWord 32 (encode i).toNat) =
      exec i { s with cmd := encode i, status := ⟨true, false, false, 0⟩, delay := 0 }

/-- R260's latch and R267: a host write to `CMD` while `BUSY = 0` stores the word and sets `STATUS`,
which clears a reported error. How long the command then waits is a free value (log entry 3). -/
def Obligations.CommandWriteLatchesAndClearsTheError : Prop :=
  ∀ (s : State) (v : Word) (rest : List HostOp), s.status.busy = false →
    s.inputs = .write 0x0000 4 v :: rest →
    ∃ d : Nat, step s = .next { s with
      inputs := rest
      cmd := v
      status := ⟨true, false, false, 0⟩
      delay := d
      commands := s.commands + 1 }

/-- R267: "The error stays in `STATUS` until the host's next write to `CMD` clears it". No input but a
`CMD` write and the platform reset changes `STATUS` or `CMD`, and a `CMD` write that is taken leaves no
error, whatever the command is. -/
def Obligations.StatusStaysUntilTheNextCommandWrite : Prop :=
  ∀ (s t : State) (op : HostOp) (rest : List HostOp), s.coreTurn = false → s.inputs = op :: rest →
    step s = .next t →
    (op ≠ .reset → (∀ v, op ≠ .write 0x0000 4 v) → t.status = s.status ∧ t.cmd = s.cmd) ∧
    (∀ v, op = .write 0x0000 4 v → t.status.err = false ∧ t.status.errcode = 0)

/-- R261: an execute step that completes leaves `BUSY = 0` and `DONE = 1`; and `ERR` exactly where there is
a code, one of those of R263. -/
def Obligations.CompletionSetsDoneAndClearsBusy : Prop :=
  ∀ (s t : State), s.coreTurn = true → step s = .next t →
    t.status = ⟨false, true, false, 0⟩ ∨
      ∃ c : BitVec 4, 1 ≤ c.toNat ∧ c.toNat ≤ 5 ∧ t.status = ⟨false, true, true, c⟩

/-- R262, R266: "Nothing the command would have written is written." -/
def Obligations.ErrorChangesNothingButStatus : Prop :=
  ∀ (s t : State), s.coreTurn = true → step s = .next t → t.status.err = true →
    t = { s with status := t.status }

/-- R297's fairness: however long a latched command waits, the host's `POLL` reads `STATUS` that many
times, nothing else changes, and then the execute step is next. -/
def Obligations.PollReachesTheExecuteStep : Prop :=
  ∀ (s : State) (rest : List HostOp), s.status.busy = true → s.inputs = .poll :: rest →
    ∃ t : State, core.run s.delay s = .next t ∧ t.coreTurn = true ∧
      t = { s with
        delay := 0
        replies := s.replies ++ List.replicate s.delay (statusWord s.status) }

/-- R30: where each field of `STATUS` stands in its word, and that the reserved bits read 0. -/
def Obligations.StatusWordHasItsFieldsInPlace : Prop :=
  ∀ (f : Status) (k : Nat),
    (statusWord f).getLsbD k =
      (if k = 0 then f.busy
       else if k = 1 then f.done
       else if k = 2 then f.err
       else if 8 ≤ k ∧ k ≤ 11 then f.errcode.getLsbD (k - 8)
       else false)

/-! ## The control command and the primitives -/

/-- R250: NOP writes `STATUS` only; its word with a bit in `N` or in `RSV` is RESERVED_FIELD. -/
def Obligations.NopOnlyCompletes : Prop :=
  encode .nop = 0x00000000 ∧ decode 0x00000100 = .error .reservedField ∧
  decode 0x00002000 = .error .reservedField ∧
  ∀ s : State, exec .nop s = .next { s with status := ⟨false, true, false, 0⟩ }

/-- R121: modular addition into `RESULT`. -/
def Obligations.AddWritesTheSumModuloTwoToThe32 : Prop :=
  encode .add = 0x00000001 ∧
  ∀ (s : State) (a b : Word), s.opa = some a → s.opb = some b →
    exec .add s = .next { s with
      result := some (BitVec.ofNat 32 ((a.toNat + b.toNat) % 2 ^ 32))
      status := ⟨false, true, false, 0⟩ }

/-- R122: "bit i of the result is bit ((i + n) mod 32) of x"; and `N = 0` raises BAD_ROTATE, whatever
`OPA` holds. -/
def Obligations.RotrMovesBitsCyclically : Prop :=
  (∀ n : BitVec 5, encode (.rotr n) = BitVec.ofNat 32 (2 + 256 * n.toNat)) ∧
  (∀ (s : State) (x : Word) (n : BitVec 5), s.opa = some x → n ≠ 0 →
    ∃ r : Word,
      exec (.rotr n) s = .next { s with result := some r, status := ⟨false, true, false, 0⟩ } ∧
      ∀ i, i < 32 → r.getLsbD i = x.getLsbD ((i + n.toNat) % 32)) ∧
  (∀ s : State, exec (.rotr 0) s = .next { s with status := ⟨false, true, true, 3⟩ })

/-- R123, R124: σ0 and σ1, bit by bit; a bit that comes from beyond bit 31 by the shift is 0. -/
def Obligations.SmallSigmasMixRotationsAndAShift : Prop :=
  encode .ssig0 = 0x00000003 ∧ encode .ssig1 = 0x00000004 ∧
  ∀ (s : State) (x : Word), s.opa = some x →
    (∃ r : Word,
      exec .ssig0 s = .next { s with result := some r, status := ⟨false, true, false, 0⟩ } ∧
      ∀ i, i < 32 → r.getLsbD i =
        ((x.getLsbD ((i + 7) % 32) ^^ x.getLsbD ((i + 18) % 32)) ^^ x.getLsbD (i + 3))) ∧
    (∃ r : Word,
      exec .ssig1 s = .next { s with result := some r, status := ⟨false, true, false, 0⟩ } ∧
      ∀ i, i < 32 → r.getLsbD i =
        ((x.getLsbD ((i + 17) % 32) ^^ x.getLsbD ((i + 19) % 32)) ^^ x.getLsbD (i + 10)))

/-- R125, R126: Σ0 and Σ1, bit by bit. -/
def Obligations.BigSigmasMixThreeRotations : Prop :=
  encode .bsig0 = 0x00000005 ∧ encode .bsig1 = 0x00000006 ∧
  ∀ (s : State) (x : Word), s.opa = some x →
    (∃ r : Word,
      exec .bsig0 s = .next { s with result := some r, status := ⟨false, true, false, 0⟩ } ∧
      ∀ i, i < 32 → r.getLsbD i =
        ((x.getLsbD ((i + 2) % 32) ^^ x.getLsbD ((i + 13) % 32)) ^^ x.getLsbD ((i + 22) % 32))) ∧
    (∃ r : Word,
      exec .bsig1 s = .next { s with result := some r, status := ⟨false, true, false, 0⟩ } ∧
      ∀ i, i < 32 → r.getLsbD i =
        ((x.getLsbD ((i + 6) % 32) ^^ x.getLsbD ((i + 11) % 32)) ^^ x.getLsbD ((i + 25) % 32)))

/-- R127: "bit i of the result is y[i] if x[i] = 1, else z[i]". R128: "bit i of the result is 1 iff at
least two of x[i], y[i], z[i] are 1". -/
def Obligations.ChooseAndMajorityPerBit : Prop :=
  encode .ch = 0x00000007 ∧ encode .maj = 0x00000008 ∧
  ∀ (s : State) (x y z : Word), s.opa = some x → s.opb = some y → s.opc = some z →
    (∃ r : Word,
      exec .ch s = .next { s with result := some r, status := ⟨false, true, false, 0⟩ } ∧
      ∀ i, i < 32 → r.getLsbD i = if x.getLsbD i = true then y.getLsbD i else z.getLsbD i) ∧
    (∃ r : Word,
      exec .maj s = .next { s with result := some r, status := ⟨false, true, false, 0⟩ } ∧
      ∀ i, i < 32 → (r.getLsbD i = true ↔
        2 ≤ (x.getLsbD i).toNat + (y.getLsbD i).toNat + (z.getLsbD i).toNat))

/-- R129 (the spec's own inference): the four sigmas are linear over xor, the big ones keep the all-ones
word and the small ones do not. -/
def Obligations.SigmasAreLinear : Prop :=
  (∀ x y : Word,
    littleSigma0 (x ^^^ y) = littleSigma0 x ^^^ littleSigma0 y ∧
    littleSigma1 (x ^^^ y) = littleSigma1 x ^^^ littleSigma1 y ∧
    bigSigma0 (x ^^^ y) = bigSigma0 x ^^^ bigSigma0 y ∧
    bigSigma1 (x ^^^ y) = bigSigma1 x ^^^ bigSigma1 y) ∧
  littleSigma0 0 = 0 ∧ littleSigma1 0 = 0 ∧ bigSigma0 0 = 0 ∧ bigSigma1 0 = 0 ∧
  bigSigma0 0xFFFFFFFF = 0xFFFFFFFF ∧ bigSigma1 0xFFFFFFFF = 0xFFFFFFFF ∧
  littleSigma0 0xFFFFFFFF ≠ 0xFFFFFFFF ∧ littleSigma1 0xFFFFFFFF ≠ 0xFFFFFFFF

/-! ## Schedule, round, compressor -/

/-- R150, R151: SCHED writes the 64 words of the recurrence; with a cell of `BLOCK` at `⊥` it is
`F_UNWRITTEN`. -/
def Obligations.SchedWritesTheRecurrence : Prop :=
  encode .sched = 0x00000010 ∧
  (∀ (s : State) (b : Nat → Byte), (∀ j, j < 64 → Memory.read s.mem (0x0140 + j) = some (b j)) →
    ∃ w : Nat → Word,
      exec .sched s = .next { s with
        w := Vector.ofFn (fun i : Fin 64 => some (w i))
        status := ⟨false, true, false, 0⟩ } ∧
      (∀ j, j < 16 → (w j).toNat = (b (4 * j)).toNat * 2 ^ 24 + (b (4 * j + 1)).toNat * 2 ^ 16
        + (b (4 * j + 2)).toNat * 2 ^ 8 + (b (4 * j + 3)).toNat) ∧
      ∀ i, 16 ≤ i → i < 64 →
        w i = w (i - 16) + littleSigma0 (w (i - 15)) + w (i - 7) + littleSigma1 (w (i - 2))) ∧
  (∀ (s : State) (j : Nat), j < 64 → Memory.read s.mem (0x0140 + j) = none →
    exec .sched s = .fault .unwritten)

/-- R160, R161: one round on `STATE`, every right-hand side from the pre-round values; with an operand
cell at `⊥` it is `F_UNWRITTEN`. -/
def Obligations.RoundTransformsTheState : Prop :=
  encode .round = 0x00000011 ∧
  (∀ (s : State) (a b c d e f g h k w : Word),
    s.st = ⟨some a, some b, some c, some d, some e, some f, some g, some h⟩ →
    s.opa = some k → s.opb = some w →
    let t1 := h + bigSigma1 e + choice e f g + k + w
    let t2 := bigSigma0 a + majority a b c
    exec .round s = .next { s with
      st := ⟨some (t1 + t2), some a, some b, some c, some (d + t1), some e, some f, some g⟩
      status := ⟨false, true, false, 0⟩ }) ∧
  (∀ (s : State) (i : Nat), eightAt s.st i = none ∨ s.opa = none ∨ s.opb = none →
    exec .round s = .fault .unwritten)

/-- R170, R171: COMPRESS applies rounds 0 to 63 in order, adds the snapshot back, and leaves the
schedule in `W`; with an operand cell at `⊥` it is `F_UNWRITTEN`. What it leaves in the hidden cells is
the model's choice and is left open here (log entry 6). -/
def Obligations.CompressRunsSixtyFourRoundsAndFeedsForward : Prop :=
  encode .compress = 0x00000012 ∧
  (∀ (s : State) (x : Eight Word) (blk : List Byte), s.st = eightMap some x →
    Memory.readBytes s.mem 0x0140 64 = some blk →
    ∃ (T : Nat → Eight Word) (hid : Hidden),
      T 0 = x ∧
      (∀ t, t < 64 → T (t + 1) =
        compressionRound (T t) (roundConstants.getD t 0) ((schedule blk).getD t 0)) ∧
      exec .compress s = .next { s with
        w := Vector.ofFn (fun i : Fin 64 => some ((schedule blk).getD i 0))
        st := eightMap some (eightZip (fun u v => u + v) (T 64) x)
        hidden := hid
        status := ⟨false, true, false, 0⟩ }) ∧
  (∀ (s : State) (i j : Nat), j < 64 →
    eightAt s.st i = none ∨ Memory.read s.mem (0x0140 + j) = none →
    exec .compress s = .fault .unwritten)

/-- R34: each `K[i]` is the first 32 bits of the fraction of the cube root of the `(i+1)`-th prime: with
`q` its whole part, `q·2^32 + K[i]` is the whole part of the cube root of `p·2^96`. -/
def Obligations.RoundConstantsAreCubeRootFractions : Prop :=
  ∀ i, i < 64 → ∃ p q : Nat, p.Prime ∧ ((List.range p).filter Nat.Prime).length = i ∧
    q ^ 3 ≤ p ∧ p < (q + 1) ^ 3 ∧
    (q * 2 ^ 32 + (roundConstants.getD i 0).toNat) ^ 3 ≤ p * 2 ^ 96 ∧
    p * 2 ^ 96 < (q * 2 ^ 32 + (roundConstants.getD i 0).toNat + 1) ^ 3

/-! ## Padding -/

/-- R180, R182, R183: PAD writes `0x80`, the smallest number of zero bytes that makes the padded length a
multiple of 64, the bit length modulo 2^64 in 8 big-endian bytes, and zero bytes up to byte 71; and the
padding's length. Nothing else of memory changes. -/
def Obligations.PadWritesThePaddingOfLen : Prop :=
  encode .pad = 0x00000018 ∧
  ∀ s : State,
    let len := s.lenHi.toNat * 2 ^ 32 + s.lenLo.toNat
    ∃ (t : State) (z : Nat), exec .pad s = .next t ∧
      (len + 1 + z + 8) % 64 = 0 ∧ (∀ y, y < z → (len + 1 + y + 8) % 64 ≠ 0) ∧
      t = { s with
        mem := t.mem
        padlen := BitVec.ofNat 32 (9 + z)
        status := ⟨false, true, false, 0⟩ } ∧
      Memory.read t.mem 0x0300 = some 0x80 ∧
      (∀ j, 1 ≤ j → j ≤ z → Memory.read t.mem (0x0300 + j) = some 0) ∧
      (∀ k, k < 8 → Memory.read t.mem (0x0300 + 1 + z + k) =
        some (BitVec.ofNat 8 (8 * len / 2 ^ (8 * (7 - k))))) ∧
      (∀ j, 9 + z ≤ j → j < 72 → Memory.read t.mem (0x0300 + j) = some 0) ∧
      (∀ a, a < 0x0300 ∨ 0x0348 ≤ a → Memory.read t.mem a = Memory.read s.mem a)

/-- R181 (the spec's inference from R180). -/
def Obligations.PaddedLengthIsAMultipleOf64 : Prop :=
  ∀ len : Nat,
    9 ≤ (pad len).length ∧ (pad len).length ≤ 72 ∧ (len + (pad len).length) % 64 = 0 ∧
    ((pad len).length = 9 ↔ len % 64 = 55) ∧
    ((pad len).length = 72 ↔ len % 64 = 56) ∧
    ((pad len).length = 64 ↔ len % 64 = 0)

/-- R184, R228, R298 (the spec's inferences): how many 64-byte blocks HASH and FORGE compress, every one
of them whole. -/
def Obligations.BlockCountsOfHashAndForge : Prop :=
  (∀ m : List Byte, (hashBlocks m).length = (m.length + 8) / 64 + 1 ∧
    (∀ blk ∈ hashBlocks m, blk.length = 64) ∧ (hashBlocks m).flatten = m ++ pad m.length) ∧
  (∀ (n : Nat) (x : List Byte),
    64 * (forgeBlocks n x).length = x.length + (pad (n + (pad n).length + x.length)).length ∧
    (∀ blk ∈ forgeBlocks n x, blk.length = 64))

/-! ## Hasher and serializer -/

/-- R200: INIT seeds `STATE` from the vector of R35. -/
def Obligations.InitSeedsTheStateFromTheVector : Prop :=
  encode .init = 0x00000020 ∧
  ∀ s : State, exec .init s = .next { s with
    st := ⟨some 0x6a09e667, some 0xbb67ae85, some 0x3c6ef372, some 0xa54ff53a,
      some 0x510e527f, some 0x9b05688c, some 0x1f83d9ab, some 0x5be0cd19⟩
    status := ⟨false, true, false, 0⟩ }

/-- R201, R202: SERIAL writes byte `4i+k` of `DIGEST` from bits `31−8k : 24−8k` of `STATE[i]`, and no
other byte; with a `STATE` word at `⊥` it is `F_UNWRITTEN`. -/
def Obligations.SerialWritesTheDigestBigEndian : Prop :=
  encode .serial = 0x00000021 ∧
  (∀ (s : State) (x : Eight Word), s.st = eightMap some x →
    ∃ t : State, exec .serial s = .next t ∧
      t = { s with mem := t.mem, status := ⟨false, true, false, 0⟩ } ∧
      (∀ i k, i < 8 → k < 4 → Memory.read t.mem (0x0120 + 4 * i + k) =
        some (BitVec.ofNat 8 ((eightAt x i).toNat / 2 ^ (24 - 8 * k)))) ∧
      (∀ a, a < 0x0120 ∨ 0x0140 ≤ a → Memory.read t.mem a = Memory.read s.mem a)) ∧
  (∀ (s : State) (i : Nat), eightAt s.st i = none → exec .serial s = .fault .unwritten)

/-- R203: `hash(m)` compresses the 64-byte blocks of `m ‖ pad(|m|)` in order, from the vector, and
serializes the last state. -/
def Obligations.HashIteratesTheCompressor : Prop :=
  ∀ m : List Byte, ∃ S : Nat → Eight Word,
    let buf := m ++ pad m.length
    S 0 = initVector ∧
    (∀ j, j < buf.length / 64 → S (j + 1) = (compress (S j) ((buf.drop (64 * j)).take 64)).state) ∧
    hashDigest m = serialize (S (buf.length / 64)) ∧
    (hashRun m).state = S (buf.length / 64) ∧
    (hashRun m).schedule = schedule (buf.drop (buf.length - 64))

/-- R204: HASH on the core. Its errors and its fault, and on success everything it writes; no other byte
of memory changes. The hidden cells are left open (log entry 6). -/
def Obligations.HashCommandHashesTheMessageBuffer : Prop :=
  encode .hash = 0x00000022 ∧
  (∀ s : State, Config.msgbufBytes < s.lenHi.toNat * 2 ^ 32 + s.lenLo.toNat →
    exec .hash s = .next { s with status := ⟨false, true, true, 4⟩ }) ∧
  (∀ (s : State) (j : Nat), s.lenHi.toNat * 2 ^ 32 + s.lenLo.toNat ≤ Config.msgbufBytes →
    j < s.lenHi.toNat * 2 ^ 32 + s.lenLo.toNat → Memory.read s.mem (0x10000 + j) = none →
    exec .hash s = .fault .unwritten) ∧
  (∀ (s : State) (m : List Byte), s.lenHi.toNat * 2 ^ 32 + s.lenLo.toNat = m.length →
    m.length ≤ Config.msgbufBytes → Memory.readBytes s.mem 0x10000 m.length = some m →
    ∃ t : State, exec .hash s = .next t ∧
      t = { s with
        mem := t.mem
        padlen := BitVec.ofNat 32 (pad m.length).length
        w := Vector.ofFn (fun i : Fin 64 => some ((hashRun m).schedule.getD i 0))
        st := eightMap some (hashRun m).state
        hidden := t.hidden
        status := ⟨false, true, false, 0⟩ } ∧
      Memory.readBytes t.mem 0x0120 32 = some (hashDigest m) ∧
      Memory.readBytes t.mem 0x0300 72 =
        some (pad m.length ++ List.replicate (72 - (pad m.length).length) 0) ∧
      (∀ a, (a < 0x0120 ∨ 0x0140 ≤ a) → (a < 0x0300 ∨ 0x0348 ≤ a) →
        Memory.read t.mem a = Memory.read s.mem a))

/-- R205 (the spec's inference): what HASH writes depends only on `LEN` and `MSGBUF[0..LEN−1]`, whatever
earlier commands left. -/
def Obligations.HashDependsOnlyOnItsMessage : Prop :=
  ∀ s s' t : State, s.lenLo = s'.lenLo → s.lenHi = s'.lenHi →
    (∀ j, j < s.lenHi.toNat * 2 ^ 32 + s.lenLo.toNat →
      Memory.read s.mem (0x10000 + j) = Memory.read s'.mem (0x10000 + j)) →
    exec .hash s = .next t → t.status.err = false →
    ∃ t' : State, exec .hash s' = .next t' ∧ t'.status = t.status ∧ t'.st = t.st ∧ t'.w = t.w ∧
      t'.padlen = t.padlen ∧
      (∀ a, (0x0120 ≤ a ∧ a < 0x0140) ∨ (0x0300 ≤ a ∧ a < 0x0348) →
        Memory.read t'.mem a = Memory.read t.mem a)

/-! ## The length-extension engine -/

/-- R220, R221: DESER rebuilds `STATE` from the 32 bytes of `DIGEST`; with one of them at `⊥` it is
`F_UNWRITTEN`. -/
def Obligations.DeserRebuildsTheStateFromTheDigest : Prop :=
  encode .deser = 0x00000030 ∧
  (∀ (s : State) (b : Nat → Byte), (∀ j, j < 32 → Memory.read s.mem (0x0120 + j) = some (b j)) →
    ∃ x : Eight Word,
      exec .deser s = .next { s with st := eightMap some x, status := ⟨false, true, false, 0⟩ } ∧
      ∀ i, i < 8 → (eightAt x i).toNat = (b (4 * i)).toNat * 2 ^ 24 + (b (4 * i + 1)).toNat * 2 ^ 16
        + (b (4 * i + 2)).toNat * 2 ^ 8 + (b (4 * i + 3)).toNat) ∧
  (∀ (s : State) (j : Nat), j < 32 → Memory.read s.mem (0x0120 + j) = none →
    exec .deser s = .fault .unwritten)

/-- R222: the decoder takes exactly 64 hex characters of either case, and pairs them high nibble first. -/
def Obligations.HexDecodeTakesSixtyFourHexCharacters : Prop :=
  (∀ c : Byte, nib c =
    if 0x30 ≤ c.toNat ∧ c.toNat ≤ 0x39 then some (BitVec.ofNat 8 (c.toNat - 0x30))
    else if 0x61 ≤ c.toNat ∧ c.toNat ≤ 0x66 then some (BitVec.ofNat 8 (c.toNat - 0x61 + 10))
    else if 0x41 ≤ c.toNat ∧ c.toNat ≤ 0x46 then some (BitVec.ofNat 8 (c.toNat - 0x41 + 10))
    else none) ∧
  (∀ h : List Byte, h.length ≠ 64 → hexDecode h = none) ∧
  (∀ h : List Byte, (∃ c ∈ h, nib c = none) → hexDecode h = none) ∧
  (∀ (h : List Byte) (v : Nat → Byte), h.length = 64 →
    (∀ i, i < 64 → nib (h.getD i 0) = some (v i)) →
    ∃ d : List Byte, hexDecode h = some d ∧ d.length = 32 ∧
      ∀ i, i < 32 → (d.getD i 0).toNat = (v (2 * i)).toNat * 16 + (v (2 * i + 1)).toNat)

/-- R223's two laws (the spec's inference): the codec is a round trip, up to the case of the text. -/
def Obligations.HexCodecRoundTrips : Prop :=
  (∀ d : List Byte, d.length = 32 → hexDecode (hexEncode d) = some d) ∧
  (∀ h d : List Byte, hexDecode h = some d → (∀ c ∈ h, ¬ (0x41 ≤ c.toNat ∧ c.toNat ≤ 0x46)) →
    hexEncode d = h)

/-- R224: RECOVERHEX on the core: its errors, its fault, and the eight words it decodes, each from a
group of eight characters. -/
def Obligations.RecoverhexRebuildsTheStateFromHex : Prop :=
  encode .recoverhex = 0x00000031 ∧
  (∀ s : State, s.hexlen ≠ 64 →
    exec .recoverhex s = .next { s with status := ⟨false, true, true, 5⟩ }) ∧
  (∀ (s : State) (j : Nat), s.hexlen = 64 → j < 64 → Memory.read s.mem (0x0180 + j) = none →
    exec .recoverhex s = .fault .unwritten) ∧
  (∀ (s : State) (c : Nat → Byte) (j : Nat), s.hexlen = 64 →
    (∀ i, i < 64 → Memory.read s.mem (0x0180 + i) = some (c i)) → j < 64 → nib (c j) = none →
    exec .recoverhex s = .next { s with status := ⟨false, true, true, 5⟩ }) ∧
  (∀ (s : State) (c v : Nat → Byte), s.hexlen = 64 →
    (∀ i, i < 64 → Memory.read s.mem (0x0180 + i) = some (c i)) →
    (∀ i, i < 64 → nib (c i) = some (v i)) →
    ∃ x : Eight Word,
      exec .recoverhex s = .next { s with
        st := eightMap some x
        status := ⟨false, true, false, 0⟩ } ∧
      ∀ k, k < 8 → (eightAt x k).toNat =
        (List.range 8).foldl (fun acc i => acc * 16 + (v (8 * k + i)).toNat) 0)

/-- R223, R225: HEXENC writes two lower-case characters for each byte of `DIGEST`, and no other byte;
with a `DIGEST` cell at `⊥` it is `F_UNWRITTEN`. -/
def Obligations.HexencWritesLowerCaseHex : Prop :=
  encode .hexenc = 0x00000032 ∧
  (∀ (s : State) (b : Nat → Byte), (∀ j, j < 32 → Memory.read s.mem (0x0120 + j) = some (b j)) →
    let ch := fun v : Nat => BitVec.ofNat 8 (if v < 10 then 0x30 + v else 0x61 + v - 10)
    ∃ t : State, exec .hexenc s = .next t ∧
      t = { s with mem := t.mem, status := ⟨false, true, false, 0⟩ } ∧
      (∀ i, i < 32 →
        Memory.read t.mem (0x01C0 + 2 * i) = some (ch ((b i).toNat / 16)) ∧
        Memory.read t.mem (0x01C0 + 2 * i + 1) = some (ch ((b i).toNat % 16))) ∧
      (∀ a, a < 0x01C0 ∨ 0x0200 ≤ a → Memory.read t.mem a = Memory.read s.mem a)) ∧
  (∀ (s : State) (j : Nat), j < 32 → Memory.read s.mem (0x0120 + j) = none →
    exec .hexenc s = .fault .unwritten)

/-- R226, R227: FORGE on the core: its errors and its fault in their order, and on success everything it
writes; no other byte of memory changes. The hidden cells are left open (log entry 6). -/
def Obligations.ForgeContinuesFromTheDigest : Prop :=
  encode .forge = 0x00000033 ∧
  (∀ s : State, Config.msgbufBytes < s.lenHi.toNat * 2 ^ 32 + s.lenLo.toNat →
    exec .forge s = .next { s with status := ⟨false, true, true, 4⟩ }) ∧
  (∀ s : State, s.lenHi.toNat * 2 ^ 32 + s.lenLo.toNat ≤ Config.msgbufBytes → s.hexlen ≠ 64 →
    exec .forge s = .next { s with status := ⟨false, true, true, 5⟩ }) ∧
  (∀ (s : State) (j : Nat), s.lenHi.toNat * 2 ^ 32 + s.lenLo.toNat ≤ Config.msgbufBytes →
    s.hexlen = 64 →
    (j < 64 ∧ Memory.read s.mem (0x0180 + j) = none) ∨
      (j < s.lenHi.toNat * 2 ^ 32 + s.lenLo.toNat ∧ Memory.read s.mem (0x10000 + j) = none) →
    exec .forge s = .fault .unwritten) ∧
  (∀ (s : State) (h x : List Byte), s.lenHi.toNat * 2 ^ 32 + s.lenLo.toNat = x.length →
    x.length ≤ Config.msgbufBytes → s.hexlen = 64 → Memory.readBytes s.mem 0x0180 64 = some h →
    Memory.readBytes s.mem 0x10000 x.length = some x → hexDecode h = none →
    exec .forge s = .next { s with status := ⟨false, true, true, 5⟩ }) ∧
  (∀ (s : State) (h d x : List Byte), s.lenHi.toNat * 2 ^ 32 + s.lenLo.toNat = x.length →
    x.length ≤ Config.msgbufBytes → s.hexlen = 64 → Memory.readBytes s.mem 0x0180 64 = some h →
    Memory.readBytes s.mem 0x10000 x.length = some x → hexDecode h = some d →
    let origLen := s.origHi.toNat * 2 ^ 32 + s.origLo.toNat
    let e := origLen + (pad origLen).length + x.length
    let buf := x ++ pad e
    ∃ (t : State) (S : Nat → Eight Word),
      S 0 = deserialize d ∧
      (∀ j, j < buf.length / 64 → S (j + 1) = (compress (S j) ((buf.drop (64 * j)).take 64)).state) ∧
      exec .forge s = .next t ∧
      t = { s with
        mem := t.mem
        padlen := BitVec.ofNat 32 (pad e).length
        w := Vector.ofFn (fun i : Fin 64 => some ((schedule (buf.drop (buf.length - 64))).getD i 0))
        st := eightMap some (S (buf.length / 64))
        hidden := t.hidden
        status := ⟨false, true, false, 0⟩ } ∧
      Memory.readBytes t.mem 0x0120 32 = some (serialize (S (buf.length / 64))) ∧
      Memory.readBytes t.mem 0x01C0 64 = some (hexEncode (serialize (S (buf.length / 64)))) ∧
      Memory.readBytes t.mem 0x0300 72 = some (pad e ++ List.replicate (72 - (pad e).length) 0) ∧
      (∀ a, (a < 0x0120 ∨ 0x0140 ≤ a) → (a < 0x01C0 ∨ 0x0200 ≤ a) → (a < 0x0300 ∨ 0x0348 ≤ a) →
        Memory.read t.mem a = Memory.read s.mem a))

/-- R228, the length-extension law (the spec derives it): forging from the digest and the length alone
gives the hash of the extended message. -/
def Obligations.ForgeEqualsHashOfTheExtendedMessage : Prop :=
  ∀ m x : List Byte,
    forge (hexEncode (hashDigest m)) m.length x
      = some (hexEncode (hashDigest (m ++ pad m.length ++ x)))

/-- R228 on the core: a FORGE on the digest, the length and a suffix leaves in `DIGEST` and `HEXOUT` what
hashing the extended message would. -/
def Obligations.ForgeCommandForgesTheExtendedDigest : Prop :=
  ∀ (s : State) (m x : List Byte), s.hexlen = 64 →
    Memory.readBytes s.mem 0x0180 64 = some (hexEncode (hashDigest m)) →
    s.origHi.toNat * 2 ^ 32 + s.origLo.toNat = m.length →
    s.lenHi.toNat * 2 ^ 32 + s.lenLo.toNat = x.length → x.length ≤ Config.msgbufBytes →
    Memory.readBytes s.mem 0x10000 x.length = some x →
    ∃ t : State, exec .forge s = .next t ∧ t.status = ⟨false, true, false, 0⟩ ∧
      Memory.readBytes t.mem 0x0120 32 = some (hashDigest (m ++ pad m.length ++ x)) ∧
      Memory.readBytes t.mem 0x01C0 64 = some (hexEncode (hashDigest (m ++ pad m.length ++ x)))

/-- R229's core law (the spec derives it): RECOVERHEX, SERIAL, HEXENC reproduce `HEXIN`, if it has no
upper-case character. -/
def Obligations.RecoverSerialHexencReproducesTheText : Prop :=
  ∀ (s : State) (h d : List Byte), s.hexlen = 64 → Memory.readBytes s.mem 0x0180 64 = some h →
    hexDecode h = some d → (∀ c ∈ h, ¬ (0x41 ≤ c.toNat ∧ c.toNat ≤ 0x46)) →
    ∃ s1 s2 s3 : State, exec .recoverhex s = .next s1 ∧ exec .serial s1 = .next s2 ∧
      exec .hexenc s2 = .next s3 ∧
      Memory.readBytes s2.mem 0x0120 32 = some d ∧
      Memory.readBytes s3.mem 0x01C0 64 = some h

/-- R229 (the spec derives it): DESER after SERIAL restores `STATE`; SERIAL after DESER restores every
byte of memory. -/
def Obligations.SerialAndDeserUndoEachOther : Prop :=
  (∀ (s s1 : State), exec .serial s = .next s1 →
    ∃ s2 : State, exec .deser s1 = .next s2 ∧ s2.st = s.st) ∧
  (∀ (s s1 : State), exec .deser s = .next s1 →
    ∃ s2 : State, exec .serial s1 = .next s2 ∧
      ∀ a, Memory.read s2.mem a = Memory.read s.mem a)

/-- R230 (the spec derives it): FORGE depends on `ORIGLEN` only through the number of blocks it pads to.
From two states that differ in nothing but an `ORIGLEN` of the same padded block count, FORGE answers next
states that differ in nothing else, or the same fault; and so for the text the function gives. -/
def Obligations.ForgeSeesOnlyThePaddedOriginalLength : Prop :=
  (∀ (s : State) (lo hi : Word),
    (s.origHi.toNat * 2 ^ 32 + s.origLo.toNat + 8) / 64 = (hi.toNat * 2 ^ 32 + lo.toNat + 8) / 64 →
    (∀ t, exec .forge s = .next t →
      exec .forge { s with origLo := lo, origHi := hi } = .next { t with origLo := lo, origHi := hi }) ∧
    (∀ f, exec .forge s = .fault f →
      exec .forge { s with origLo := lo, origHi := hi } = .fault f)) ∧
  (∀ (h x : List Byte) (n n' : Nat), (n + 8) / 64 = (n' + 8) / 64 → forge h n x = forge h n' x)

/-! ## Errors, faults and completion of all commands -/

/-- R264: the nine steps of the check order on the core, one case after another. Which cells a command
reads is the table of R265, `operandsHeld`. -/
def Obligations.ChecksAreMadeInOrder : Prop :=
  ∀ s : State, s.coreTurn = true →
    let op := s.cmd.toNat % 256
    let n := s.cmd.toNat / 256 % 32
    let len := s.lenHi.toNat * 2 ^ 32 + s.lenLo.toNat
    if op ∉ [0x00, 0x01, 0x02, 0x03, 0x04, 0x05, 0x06, 0x07, 0x08, 0x10, 0x11, 0x12, 0x18, 0x20, 0x21,
        0x22, 0x30, 0x31, 0x32, 0x33] then step s = .next { s with status := ⟨false, true, true, 1⟩ }
    else if s.cmd.toNat / 8192 ≠ 0 then step s = .next { s with status := ⟨false, true, true, 2⟩ }
    else if op ≠ 0x02 ∧ n ≠ 0 then step s = .next { s with status := ⟨false, true, true, 2⟩ }
    else if op = 0x02 ∧ n = 0 then step s = .next { s with status := ⟨false, true, true, 3⟩ }
    else if (op = 0x22 ∨ op = 0x33) ∧ Config.msgbufBytes < len then
      step s = .next { s with status := ⟨false, true, true, 4⟩ }
    else if (op = 0x31 ∨ op = 0x33) ∧ s.hexlen ≠ 64 then
      step s = .next { s with status := ⟨false, true, true, 5⟩ }
    else ∃ i : Instr, encode i = s.cmd ∧
      if operandsHeld i s = false then step s = .fault .unwritten
      else if (op = 0x31 ∨ op = 0x33) ∧
          ((List.range 64).any fun j =>
            (Memory.read s.mem (0x0180 + j)).any fun c => (nib c).isNone) = true then
        step s = .next { s with status := ⟨false, true, true, 5⟩ }
      else ∃ t : State, step s = .next t ∧ t.status = ⟨false, true, false, 0⟩

/-- R265, R293: a command completes exactly where a check turns it away or every operand cell holds a
value; otherwise it is `F_UNWRITTEN`. No command meets another fault, and none is refused. -/
def Obligations.CommandsCompleteExactlyWhenOperandsAreHeld : Prop :=
  ∀ (i : Instr) (s : State),
    ((∃ t : State, exec i s = .next t) ↔ (turnedAway i s = true ∨ operandsHeld i s = true)) ∧
    (exec i s = .fault .unwritten ↔ (turnedAway i s = false ∧ operandsHeld i s = false)) ∧
    exec i s ≠ .fault .bus ∧ exec i s ≠ .fault .hazard ∧ ∀ r, exec i s ≠ .refused r

/-! ## Which command writes what -/

/-- R21, R23 to R28, R33, R120, R93: the registers no command but the named ones writes. -/
def Obligations.CommandsWriteOnlyTheirRegisters : Prop :=
  ∀ (i : Instr) (s t : State), exec i s = .next t →
    (i ≠ .init → i ≠ .round → i ≠ .compress → i ≠ .hash → i ≠ .deser → i ≠ .recoverhex → i ≠ .forge →
      t.st = s.st) ∧
    (i ≠ .add → (∀ n, i ≠ .rotr n) → i ≠ .ssig0 → i ≠ .ssig1 → i ≠ .bsig0 → i ≠ .bsig1 → i ≠ .ch →
      i ≠ .maj → t.result = s.result) ∧
    (i ≠ .sched → i ≠ .compress → i ≠ .hash → i ≠ .forge → t.w = s.w) ∧
    (i ≠ .pad → i ≠ .hash → i ≠ .forge → t.padlen = s.padlen) ∧
    t = { s with
      st := t.st
      result := t.result
      w := t.w
      padlen := t.padlen
      mem := t.mem
      hidden := t.hidden
      status := t.status }

/-- R36, R71: the buffers a command writes; every other byte keeps its value. -/
def Obligations.CommandsWriteOnlyTheirBuffers : Prop :=
  ∀ (i : Instr) (s t : State) (a : Nat), exec i s = .next t →
    (i = .serial ∨ i = .hash ∨ i = .forge → ¬ (0x0120 ≤ a ∧ a < 0x0140)) →
    (i = .hexenc ∨ i = .forge → ¬ (0x01C0 ≤ a ∧ a < 0x0200)) →
    (i = .pad ∨ i = .hash ∨ i = .forge → ¬ (0x0300 ≤ a ∧ a < 0x0348)) →
    Memory.read t.mem a = Memory.read s.mem a

/-- R37: "No rule reads these from outside the command that uses them": whatever the hidden cells hold,
the machine does the same in everything else. -/
def Obligations.HiddenStateIsNeverSeen : Prop :=
  ∀ (s : State) (hid : Hidden),
    (∀ t, step s = .next t →
      ∃ hid', step { s with hidden := hid } = .next { t with hidden := hid' }) ∧
    (∀ f, step s = .fault f → step { s with hidden := hid } = .fault f)

/-! ## The host bus -/

/-- R68: an access that is misaligned or not 32 bits wide is `F_BUS`, whatever it would reach. -/
def Obligations.MisalignedOrNarrowAccessIsABusFault : Prop :=
  ∀ (s : State) (off v : Word) (size : Nat) (rest : List HostOp), s.coreTurn = false →
    size ≠ 4 ∨ off.toNat % 4 ≠ 0 →
    (s.inputs = .read off size :: rest → step s = .fault .bus) ∧
    (s.inputs = .write off size v :: rest → step s = .fault .bus)

/-- R294: while `BUSY = 1` the host may only read `STATUS`, and that read changes nothing of the core;
every other aligned access is `F_HAZARD`. That the read moves the host's queue and record on and uses up
one unit of the command's delay is the model's choice (log entries 3 and 12). -/
def Obligations.BusyCoreAnswersOnlyStatusReads : Prop :=
  ∀ (s : State) (off v : Word) (rest : List HostOp), s.coreTurn = false → s.status.busy = true →
    off.toNat % 4 = 0 →
    (s.inputs = .read off 4 :: rest → off ≠ 0x0004 → step s = .fault .hazard) ∧
    (s.inputs = .write off 4 v :: rest → step s = .fault .hazard) ∧
    (s.inputs = .read 0x0004 4 :: rest → step s = .next { s with
      inputs := rest
      delay := s.delay - 1
      replies := s.replies ++ [statusWord s.status] })

/-- R62: a read or a write of a reserved offset is `F_BUS`, and R69: so is a write to a read-only
location. -/
def Obligations.ReservedAndReadOnlyAccessesAreBusFaults : Prop :=
  ∀ (s : State) (off v : Word) (rest : List HostOp), s.status.busy = false → off.toNat % 4 = 0 →
    let a := off.toNat
    let reserved := (0x0038 ≤ a ∧ a < 0x0100) ∨ (0x0348 ≤ a ∧ a < 0x0400) ∨
      (0x0520 ≤ a ∧ a < 0x10000) ∨ 0x10000 + Config.msgbufBytes ≤ a
    let readOnly := a = 0x0004 ∨ a = 0x0014 ∨ a = 0x0028 ∨ a = 0x0030 ∨ a = 0x0034 ∨
      (0x0100 ≤ a ∧ a < 0x0120) ∨ (0x01C0 ≤ a ∧ a < 0x0348) ∨ (0x0400 ≤ a ∧ a < 0x0520)
    (s.inputs = .read off 4 :: rest → reserved → step s = .fault .bus) ∧
    (s.inputs = .write off 4 v :: rest → reserved ∨ readOnly → step s = .fault .bus)

/-- R66, R70: a host read answers what `memRead` says and changes no state but the host's own queue and
record; a host write does what `memWrite` says. -/
def Obligations.HostAccessesGoThroughTheBus : Prop :=
  ∀ (s : State) (off v : Word) (size : Nat) (rest : List HostOp), s.coreTurn = false →
    (s.inputs = .read off size :: rest →
      (∀ x, memRead s off size = .ok x → step s = .next { s with
        inputs := rest
        delay := s.delay - 1
        replies := s.replies ++ [x] }) ∧
      (∀ f, memRead s off size = .error f → step s = .fault f)) ∧
    (s.inputs = .write off size v :: rest →
      (∀ t, memWrite { s with inputs := rest, delay := s.delay - 1 } off size v = .ok t →
        step s = .next t) ∧
      (∀ f, memWrite s off size v = .error f → step s = .fault f))

/-- R66 and R67 on the registers and the word arrays: what a read returns of each, `F_UNWRITTEN` where
the cell holds `⊥`, and what a write stores into the eight registers a host may write. -/
def Obligations.RegisterAccessesReachTheRegister : Prop :=
  ∀ s : State, s.status.busy = false →
    memRead s 0x0000 4 = .ok s.cmd ∧
    memRead s 0x0004 4 = .ok (statusWord s.status) ∧
    memRead s 0x0018 4 = .ok s.lenLo ∧ memRead s 0x001C 4 = .ok s.lenHi ∧
    memRead s 0x0020 4 = .ok s.origLo ∧ memRead s 0x0024 4 = .ok s.origHi ∧
    memRead s 0x0028 4 = .ok s.padlen ∧ memRead s 0x002C 4 = .ok s.hexlen ∧
    memRead s 0x0030 4 = .ok 0x53323536 ∧
    memRead s 0x0034 4 = .ok (BitVec.ofNat 32 Config.msgbufBytes) ∧
    (∀ (k : Nat) (cell : Option Word),
      (k = 0x0008 ∧ cell = s.opa) ∨ (k = 0x000C ∧ cell = s.opb) ∨ (k = 0x0010 ∧ cell = s.opc) ∨
      (k = 0x0014 ∧ cell = s.result) ∨
      (∃ i, i < 8 ∧ k = 0x0100 + 4 * i ∧ cell = eightAt s.st i) ∨
      (∃ i : Fin 64, k = 0x0200 + 4 * i.val ∧ cell = s.w[i]) ∨
      (∃ i, i < 64 ∧ k = 0x0400 + 4 * i ∧ cell = some (roundConstants.getD i 0)) ∨
      (∃ i, i < 8 ∧ k = 0x0500 + 4 * i ∧ cell = some (eightAt initVector i)) →
      memRead s (BitVec.ofNat 32 k) 4 =
        match cell with
        | none => .error .unwritten
        | some v => .ok v) ∧
    (∀ v : Word,
      memWrite s 0x0008 4 v = .ok { s with opa := some v } ∧
      memWrite s 0x000C 4 v = .ok { s with opb := some v } ∧
      memWrite s 0x0010 4 v = .ok { s with opc := some v } ∧
      memWrite s 0x0018 4 v = .ok { s with lenLo := v } ∧
      memWrite s 0x001C 4 v = .ok { s with lenHi := v } ∧
      memWrite s 0x0020 4 v = .ok { s with origLo := v } ∧
      memWrite s 0x0024 4 v = .ok { s with origHi := v } ∧
      memWrite s 0x002C 4 v = .ok { s with hexlen := v })

/-- R65: a word written into a buffer the host may write is packed big-endian into its four cells, no
other byte changes, and reading the offset gives the word back. -/
def Obligations.BufferWordsArePackedBigEndian : Prop :=
  ∀ (s : State) (off v : Word), s.status.busy = false → off.toNat % 4 = 0 →
    (0x0120 ≤ off.toNat ∧ off.toNat < 0x01C0) ∨
      (0x10000 ≤ off.toNat ∧ off.toNat < 0x10000 + Config.msgbufBytes) →
    ∃ t : State, memWrite s off 4 v = .ok t ∧ t = { s with mem := t.mem } ∧
      (∀ k, k < 4 → Memory.read t.mem (off.toNat + k) =
        some (BitVec.ofNat 8 (v.toNat / 2 ^ (24 - 8 * k)))) ∧
      (∀ a, a < off.toNat ∨ off.toNat + 4 ≤ a → Memory.read t.mem a = Memory.read s.mem a) ∧
      memRead t off 4 = .ok v

/-- R65 for reads: a read of any buffer is `BE32` of its four cells, and `F_UNWRITTEN` if any of them
holds `⊥`. -/
def Obligations.BufferReadsNeedAllFourCells : Prop :=
  ∀ (s : State) (off : Word), s.status.busy = false → off.toNat % 4 = 0 →
    (0x0120 ≤ off.toNat ∧ off.toNat < 0x0200) ∨ (0x0300 ≤ off.toNat ∧ off.toNat < 0x0348) ∨
      (0x10000 ≤ off.toNat ∧ off.toNat < 0x10000 + Config.msgbufBytes) →
    (∀ k, k < 4 → Memory.read s.mem (off.toNat + k) = none → memRead s off 4 = .error .unwritten) ∧
    (∀ b : Nat → Byte, (∀ k, k < 4 → Memory.read s.mem (off.toNat + k) = some (b k)) →
      ∃ v : Word, memRead s off 4 = .ok v ∧
        v.toNat = (b 0).toNat * 2 ^ 24 + (b 1).toNat * 2 ^ 16 + (b 2).toNat * 2 ^ 8 + (b 3).toNat)

/-- R21, R24, R33, R27, R36: the host writes none of `STATE`, `RESULT`, `W`, `PADLEN`, `HEXOUT` and
`PADBUF`, and no hidden cell: of its inputs only the platform reset changes them. -/
def Obligations.HostNeverWritesTheCoresResults : Prop :=
  ∀ s t : State, s.coreTurn = false → (∀ rest, s.inputs ≠ .reset :: rest) → step s = .next t →
    t.st = s.st ∧ t.result = s.result ∧ t.w = s.w ∧ t.padlen = s.padlen ∧ t.hidden = s.hidden ∧
    (∀ a, (0x01C0 ≤ a ∧ a < 0x0200) ∨ (0x0300 ≤ a ∧ a < 0x0348) →
      Memory.read t.mem a = Memory.read s.mem a)

/-! ## Reset and invariant -/

/-- R291, row by row: the registers, what the host reads of the constants, the cells at `⊥`, the hidden
cells, and no latched command. -/
def Obligations.ResetGivesTheTablesValues : Prop :=
  State.reset.cmd = 0 ∧ State.reset.status = ⟨false, false, false, 0⟩ ∧
  State.reset.opa = none ∧ State.reset.opb = none ∧ State.reset.opc = none ∧
  State.reset.result = none ∧ State.reset.lenLo = 0 ∧ State.reset.lenHi = 0 ∧
  State.reset.origLo = 0 ∧ State.reset.origHi = 0 ∧ State.reset.padlen = 0 ∧
  State.reset.hexlen = 0 ∧ memRead State.reset 0x0030 4 = .ok 0x53323536 ∧
  memRead State.reset 0x0034 4 = .ok (BitVec.ofNat 32 Config.msgbufBytes) ∧
  (∀ i, eightAt State.reset.st i = none) ∧ (∀ i : Fin 64, State.reset.w[i] = none) ∧
  (∀ i, i < 64 → memRead State.reset (BitVec.ofNat 32 (0x0400 + 4 * i)) 4 =
    .ok (roundConstants.getD i 0)) ∧
  (∀ i, i < 8 → memRead State.reset (BitVec.ofNat 32 (0x0500 + 4 * i)) 4 = .ok (eightAt initVector i)) ∧
  (∀ a, Memory.read State.reset.mem a = none) ∧
  (∀ i, eightAt State.reset.hidden.snap i = none) ∧ State.reset.hidden.round = none ∧
  State.reset.hidden.blockIndex = none ∧ (∀ i : Fin 64, State.reset.hidden.blockLatch[i] = none)

/-- R290: reset at the host's turn, even with a command latched: it is dropped, and the core's state is
R291's. (That the host's own queue and record outlive it is the model's choice, log entry 11.) -/
def Obligations.PlatformResetDropsTheLatchedCommand : Prop :=
  ∀ (s : State) (rest : List HostOp), s.coreTurn = false → s.inputs = .reset :: rest →
    step s = .next { State.reset with
      inputs := rest
      replies := s.replies
      commands := s.commands }

/-- The invariant, clause by clause from R27, R30, R36, R183, R261, R263 and the canonical form of
memory, is kept by every step from every state that has it. -/
def Obligations.EveryStepKeepsTheStateLawful : Prop :=
  ∀ s t : State, s.Lawful → step s = .next t → t.Lawful

/-- The invariant holds right after reset. -/
def Obligations.ResetStateIsLawful : Prop := State.reset.Lawful

/-- Equal memories are equal data: canonical memories that read alike everywhere are one list (log entry
5). -/
def Obligations.CanonicalMemoriesThatReadAlikeAreEqual : Prop :=
  ∀ m m' : Memory, Memory.wf m → Memory.wf m' → (∀ a, Memory.read m a = Memory.read m' a) → m = m'
end

