-- ==== Sys2Proof/Laws/Bits.lean ====
section
/-! SUPPORT. The primitives of R121 to R128, bit by bit. -/

namespace Sys2Proof.Machine

theorem rotr_getLsbD (x : Word) {n i : Nat} (hn : 0 < n) (hn' : n < 32) (hi : i < 32) :
    (rotr x n).getLsbD i = x.getLsbD ((i + n) % 32) := by
  simp only [rotr, BitVec.getLsbD_or, BitVec.getLsbD_ushiftRight, BitVec.getLsbD_shiftLeft]
  by_cases h : i + n < 32
  · have e : (i + n) % 32 = i + n := Nat.mod_eq_of_lt h
    have h' : i < 32 - n := by omega
    simp [e, h', Nat.add_comm n i]
  · have e : (i + n) % 32 = i - (32 - n) := by omega
    have h' : ¬ i < 32 - n := by omega
    have hz : x.getLsbD (n + i) = false := BitVec.getLsbD_of_ge x _ (by omega)
    simp [e, h', hi, hz]

theorem choice_getLsbD (x y z : Word) {i : Nat} (hi : i < 32) :
    (choice x y z).getLsbD i = if x.getLsbD i = true then y.getLsbD i else z.getLsbD i := by
  simp only [choice, BitVec.getLsbD_xor, BitVec.getLsbD_and, BitVec.getLsbD_not, hi]
  cases x.getLsbD i <;> simp

theorem majority_getLsbD (x y z : Word) (i : Nat) :
    (majority x y z).getLsbD i =
      decide (2 ≤ (x.getLsbD i).toNat + (y.getLsbD i).toNat + (z.getLsbD i).toNat) := by
  simp only [majority, BitVec.getLsbD_xor, BitVec.getLsbD_and]
  cases x.getLsbD i <;> cases y.getLsbD i <;> cases z.getLsbD i <;> rfl

end Sys2Proof.Machine
end

