-- ==== Sys2Proof/Laws/Memory.lean ====
section
/-! SUPPORT. The laws of memory: read after write, the canonical form is kept, whole ranges of bytes. -/

namespace Sys2Proof.Machine

theorem Memory.read_write_self (m : Memory) (a : Nat) (b : Byte) :
    Memory.read (Memory.write m a b) a = some b := by
  induction m with
  | nil => simp [Memory.write, Memory.read]
  | cons c m ih =>
    obtain ⟨k, c⟩ := c
    simp only [Memory.write]
    split
    · simp [Memory.read]
    · split
      · simp [Memory.read]
      · have : k ≠ a := by omega
        simp [Memory.read, this, ih]

theorem Memory.read_write_ne (m : Memory) {a x : Nat} (b : Byte) (h : x ≠ a) :
    Memory.read (Memory.write m a b) x = Memory.read m x := by
  have h' : a ≠ x := fun e => h e.symm
  induction m with
  | nil => simp [Memory.write, Memory.read, h']
  | cons c m ih =>
    obtain ⟨k, c⟩ := c
    simp only [Memory.write]
    split
    · simp [Memory.read, h']
    · split
      · rename_i _ e
        have : k ≠ x := by omega
        simp [Memory.read, h', this]
      · simp only [Memory.read, ih]

/-- A write lists no address that was not listed, but its own. -/
theorem Memory.mem_write {m : Memory} {a : Nat} {b : Byte} {c : Host.Cell}
    (h : c ∈ Memory.write m a b) : c.1 = a ∨ c ∈ m := by
  induction m with
  | nil => simp [Memory.write] at h; simp [h]
  | cons d m ih =>
    obtain ⟨k, d⟩ := d
    simp only [Memory.write] at h
    split at h
    · simp only [List.mem_cons] at h ⊢
      rcases h with h | h
      · simp [h]
      · exact .inr h
    · split at h
      · simp only [List.mem_cons] at h ⊢
        rcases h with h | h
        · simp [h]
        · exact .inr (.inr h)
      · simp only [List.mem_cons] at h ⊢
        rcases h with h | h
        · exact .inr (.inl h)
        · exact (ih h).imp id .inr

theorem Memory.write_wf {m : Memory} (a : Nat) (b : Byte) (h : Memory.wf m) :
    Memory.wf (Memory.write m a b) := by
  induction m with
  | nil => simp [Memory.write]
  | cons c m ih =>
    obtain ⟨k, c⟩ := c
    obtain ⟨hk, hm⟩ := List.pairwise_cons.mp h
    simp only [Memory.write]
    split
    · rename_i hlt
      refine List.pairwise_cons.mpr ⟨?_, h⟩
      intro x hx
      rcases List.mem_cons.mp hx with rfl | hx
      · exact hlt
      · exact Nat.lt_trans hlt (hk x hx)
    · split
      · rename_i _ e
        exact List.pairwise_cons.mpr ⟨fun x hx => e ▸ hk x hx, hm⟩
      · refine List.pairwise_cons.mpr ⟨?_, ih hm⟩
        intro x hx
        rcases Memory.mem_write hx with e | hx
        · show k < x.1
          omega
        · exact hk x hx

theorem Memory.writeBytes_wf {m : Memory} (a : Nat) (l : List Byte) (h : Memory.wf m) :
    Memory.wf (Memory.writeBytes m a l) := by
  induction l generalizing m a with
  | nil => exact h
  | cons b l ih => exact ih _ (Memory.write_wf a b h)

theorem Memory.mem_writeBytes {m : Memory} {a : Nat} {l : List Byte} {c : Host.Cell}
    (h : c ∈ Memory.writeBytes m a l) : (a ≤ c.1 ∧ c.1 < a + l.length) ∨ c ∈ m := by
  induction l generalizing m a with
  | nil => exact .inr h
  | cons b l ih =>
    rcases ih h with h | h
    · left
      simp only [List.length_cons]
      omega
    · rcases Memory.mem_write h with e | h
      · left
        simp only [List.length_cons]
        omega
      · exact .inr h

/-- One byte of a written range, and every byte outside it. -/
theorem Memory.read_writeBytes (m : Memory) (a x : Nat) (l : List Byte) :
    Memory.read (Memory.writeBytes m a l) x =
      if a ≤ x ∧ x < a + l.length then l[x - a]? else Memory.read m x := by
  induction l generalizing m a with
  | nil =>
    simp [Memory.writeBytes]
  | cons b l ih =>
    simp only [Memory.writeBytes, ih, List.length_cons]
    by_cases hx : x = a
    · subst hx
      simp [Memory.read_write_self]
    · rw [Memory.read_write_ne _ _ hx]
      by_cases h : a + 1 ≤ x ∧ x < a + 1 + l.length
      · have h2 : a ≤ x ∧ x < a + (l.length + 1) := by omega
        obtain ⟨n, rfl⟩ := Nat.exists_eq_add_of_le h.1
        have e1 : a + 1 + n - (a + 1) = n := by omega
        have e2 : a + 1 + n - a = n + 1 := by omega
        rw [if_pos h, if_pos h2, e1, e2, List.getElem?_cons_succ]
      · have h2 : ¬ (a ≤ x ∧ x < a + (l.length + 1)) := by omega
        rw [if_neg h, if_neg h2]

/-- A range holds the byte string `l` exactly where each of its cells holds the byte of `l`. -/
theorem Memory.readBytes_eq_some_iff (m : Memory) (a n : Nat) (l : List Byte) :
    Memory.readBytes m a n = some l ↔ l.length = n ∧ ∀ i, i < n → Memory.read m (a + i) = l[i]? := by
  induction n generalizing a l with
  | zero =>
    simp only [Memory.readBytes, Option.some.injEq]
    constructor
    · rintro rfl
      simp
    · rintro ⟨h, -⟩
      exact (List.length_eq_zero_iff.mp h).symm
  | succ n ih =>
    constructor
    · intro h
      simp only [Memory.readBytes] at h
      split at h
      · rename_i b bs hb hbs
        obtain rfl := Option.some.inj h
        obtain ⟨hl, hr⟩ := (ih _ _).mp hbs
        refine ⟨by simp [hl], fun i hi => ?_⟩
        cases i with
        | zero => simp [hb]
        | succ i =>
          rw [List.getElem?_cons_succ, ← hr i (by omega)]
          congr 1
          omega
      · cases h
    · rintro ⟨hl, hr⟩
      cases l with
      | nil => simp at hl
      | cons b l =>
        have h0 := hr 0 (by omega)
        have hrest := (ih (a + 1) l).mpr ⟨by simpa using hl, fun i hi => by
          have := hr (i + 1) (by omega)
          rw [List.getElem?_cons_succ] at this
          rw [← this]
          congr 1
          omega⟩
        simp only [Nat.add_zero, List.getElem?_cons_zero] at h0
        simp [Memory.readBytes, h0, hrest]

theorem Memory.readBytes_isSome_iff (m : Memory) (a n : Nat) :
    (Memory.readBytes m a n).isSome = true ↔ ∀ i, i < n → (Memory.read m (a + i)).isSome = true := by
  induction n generalizing a with
  | zero => simp [Memory.readBytes]
  | succ n ih =>
    have hstep : (Memory.readBytes m a (n + 1)).isSome = true ↔
        (Memory.read m a).isSome = true ∧ (Memory.readBytes m (a + 1) n).isSome = true := by
      simp only [Memory.readBytes]
      cases Memory.read m a <;> cases Memory.readBytes m (a + 1) n <;> simp
    rw [hstep, ih]
    constructor
    · rintro ⟨h0, h⟩ i hi
      cases i with
      | zero => exact h0
      | succ i =>
        have := h i (by omega)
        rwa [Nat.add_assoc, Nat.add_comm 1] at this
    · intro h
      refine ⟨h 0 (by omega), fun i hi => ?_⟩
      have := h (i + 1) (by omega)
      rwa [Nat.add_comm i, ← Nat.add_assoc] at this

theorem Memory.readBytes_length {m : Memory} {a n : Nat} {l : List Byte}
    (h : Memory.readBytes m a n = some l) : l.length = n :=
  ((Memory.readBytes_eq_some_iff m a n l).mp h).1

/-- Memories that read alike on a range give the same bytes. -/
theorem Memory.readBytes_congr {m m' : Memory} {a n : Nat}
    (h : ∀ i, i < n → Memory.read m (a + i) = Memory.read m' (a + i)) :
    Memory.readBytes m a n = Memory.readBytes m' a n := by
  induction n generalizing a with
  | zero => rfl
  | succ n ih =>
    have h0 := h 0 (by omega)
    have hr := ih (a := a + 1) fun i hi => by
      have := h (i + 1) (by omega)
      rwa [Nat.add_comm i, ← Nat.add_assoc] at this
    simp only [Nat.add_zero] at h0
    simp only [Memory.readBytes, h0, hr]

/-- Reading a range just written gives the bytes written. -/
theorem Memory.readBytes_writeBytes_self (m : Memory) (a : Nat) (l : List Byte) :
    Memory.readBytes (Memory.writeBytes m a l) a l.length = some l := by
  refine (Memory.readBytes_eq_some_iff _ _ _ _).mpr ⟨rfl, fun i hi => ?_⟩
  rw [Memory.read_writeBytes, if_pos (by omega)]
  congr 1
  omega

/-- Reading a range a write does not touch gives what it gave before. -/
theorem Memory.readBytes_writeBytes_disjoint (m : Memory) {a b n : Nat} (l : List Byte)
    (h : b + n ≤ a ∨ a + l.length ≤ b) :
    Memory.readBytes (Memory.writeBytes m a l) b n = Memory.readBytes m b n :=
  Memory.readBytes_congr fun i hi => by
    rw [Memory.read_writeBytes, if_neg (by omega)]

/-- A range with a cell at `⊥` gives no bytes. -/
theorem Memory.readBytes_eq_none {m : Memory} {a n j : Nat} (hj : j < n)
    (h : Memory.read m (a + j) = none) : Memory.readBytes m a n = none := by
  cases e : Memory.readBytes m a n with
  | none => rfl
  | some l =>
    obtain ⟨hl, hr⟩ := (Memory.readBytes_eq_some_iff m a n l).mp e
    rw [hr j hj, List.getElem?_eq_none_iff] at h
    omega

/-- A range whose cells all hold a value gives those values. -/
theorem Memory.readBytes_of_cells {m : Memory} {a n : Nat} {b : Nat → Byte}
    (h : ∀ j, j < n → Memory.read m (a + j) = some (b j)) :
    Memory.readBytes m a n = some ((List.range n).map b) := by
  refine (Memory.readBytes_eq_some_iff _ _ _ _).mpr ⟨by simp, fun i hi => ?_⟩
  rw [h i hi]
  simp [hi]

end Sys2Proof.Machine
end

