-- ==== Sys2Proof/Laws/Bus.lean ====
section
/-! SUPPORT. The host bus: what the address map gives, and what a host write can do. -/

namespace Sys2Proof.Machine

theorem msgbufBytes_mod : Config.msgbufBytes % 4 = 0 := by
  unfold Config.msgbufBytes
  omega

theorem msgbufBytes_bounds : 64 ≤ Config.msgbufBytes ∧ Config.msgbufBytes ≤ 2 ^ 32 - 0x10000 := by
  have := Config.msgbufExtraWords.isLt
  unfold Config.msgbufBytes
  omega

theorem bufSize_mod (b : Buf) : bufSize b % 4 = 0 := by
  cases b <;> simp [bufSize, msgbufBytes_mod]

theorem scalarRegion_ne_buffer (off : Nat) (b : Buf) (j : Nat) : scalarRegion off ≠ .buffer b j := by
  unfold scalarRegion
  split <;> exact Region.noConfusion

theorem stateRegion_buffer {off : Nat} {b : Buf} {j : Nat} (ha : off % 4 = 0) (hl : 0x0100 ≤ off)
    (hu : off < 0x0200) (h : stateRegion off = .buffer b j) :
    off = bufBase b + 4 * j ∧ 4 * j + 4 ≤ bufSize b := by
  unfold stateRegion at h
  repeat' (split at h)
  all_goals first
    | cases h; done
    | (cases h; simp only [bufBase, bufSize]; omega)

theorem tableRegion_buffer {off : Nat} {b : Buf} {j : Nat} (ha : off % 4 = 0)
    (h : tableRegion off = .buffer b j) : off = bufBase b + 4 * j ∧ 4 * j + 4 ≤ bufSize b := by
  unfold tableRegion at h
  repeat' (split at h)
  all_goals first
    | cases h; done
    | (cases h; simp only [bufBase, bufSize]; omega)

/-- A region that is a buffer's word `j` stands at that word's offset, and all four of its bytes are in
the buffer. -/
theorem region_buffer {off : Nat} {b : Buf} {j : Nat} (ha : off % 4 = 0)
    (h : region off = .buffer b j) : off = bufBase b + 4 * j ∧ 4 * j + 4 ≤ bufSize b := by
  have hm := msgbufBytes_mod
  unfold region at h
  split at h
  · exact absurd h (scalarRegion_ne_buffer _ _ _)
  · split at h
    · exact stateRegion_buffer ha (by omega) (by omega) h
    · split at h
      · exact tableRegion_buffer ha h
      · split at h
        · cases h
          simp only [bufBase, bufSize]
          omega
        · cases h

theorem region_cmd {off : Nat} (h : region off = .cmd) : off = 0 := by
  unfold region at h
  split at h
  · unfold scalarRegion at h
    split at h <;> first | rfl | cases h
  · unfold stateRegion tableRegion at h
    repeat' (split at h)
    all_goals cases h

/-- What a host write leaves (R67): a latched command, one of the eight writable registers, or the four
bytes of one word in a buffer the host may write. -/
inductive Written (s : State) (off v : Word) : State → Prop where
  | command (h : off = 0) : Written s off v (s.latch v)
  | opa : Written s off v { s with opa := some v }
  | opb : Written s off v { s with opb := some v }
  | opc : Written s off v { s with opc := some v }
  | lenLo : Written s off v { s with lenLo := v }
  | lenHi : Written s off v { s with lenHi := v }
  | origLo : Written s off v { s with origLo := v }
  | origHi : Written s off v { s with origHi := v }
  | hexlen : Written s off v { s with hexlen := v }
  | buffer (b : Buf) (j : Nat) (hb : b ≠ .hexout ∧ b ≠ .padbuf) (ho : off.toNat = bufBase b + 4 * j)
      (hj : 4 * j + 4 ≤ bufSize b) :
      Written s off v { s with mem := Memory.writeBytes s.mem (bufBase b + 4 * j) (be32Bytes v) }

theorem memWrite_ok {s t : State} {off v : Word} {size : Nat} (h : memWrite s off size v = .ok t) :
    size = 4 ∧ off.toNat % 4 = 0 ∧ s.status.busy = false ∧ Written s off v t := by
  unfold memWrite at h
  split at h
  · cases h
  · rename_i hs
    obtain ⟨h4, ha⟩ := not_or.mp hs
    rw [Decidable.not_not] at h4 ha
    split at h
    · cases h
    · rename_i hb
      refine ⟨h4, ha, by simpa using hb, ?_⟩
      generalize hr : region off.toNat = r at h
      cases r with
      | cmd =>
        cases h
        exact .command (BitVec.eq_of_toNat_eq (region_cmd hr))
      | opa => cases h; exact .opa
      | opb => cases h; exact .opb
      | opc => cases h; exact .opc
      | lenLo => cases h; exact .lenLo
      | lenHi => cases h; exact .lenHi
      | origLo => cases h; exact .origLo
      | origHi => cases h; exact .origHi
      | hexlen => cases h; exact .hexlen
      | buffer b j =>
        obtain ⟨ho, hj⟩ := region_buffer ha hr
        cases b with
        | hexout => cases h
        | padbuf => cases h
        | msgbuf => cases h; exact .buffer .msgbuf j ⟨by decide, by decide⟩ ho hj
        | block => cases h; exact .buffer .block j ⟨by decide, by decide⟩ ho hj
        | digest => cases h; exact .buffer .digest j ⟨by decide, by decide⟩ ho hj
        | hexin => cases h; exact .buffer .hexin j ⟨by decide, by decide⟩ ho hj
      | status => cases h
      | result => cases h
      | padlen => cases h
      | ident => cases h
      | msgcap => cases h
      | st i => cases h
      | sched i => cases h
      | const i => cases h
      | iv i => cases h
      | reserved => cases h

/-- A read depends on none of the host's own fields. -/
theorem memRead_hostSide (s : State) (off : Word) (size : Nat) (i : List HostOp) (r : List Word)
    (d c : Nat) :
    memRead { s with inputs := i, replies := r, delay := d, commands := c } off size =
      memRead s off size := by
  unfold memRead
  cases region off.toNat <;> rfl

end Sys2Proof.Machine
end

