-- ==== Sys2Proof/Laws/State.lean ====
section
/-! SUPPORT. One lemma per field of the state per register update, so that no proof unfolds a record
update. Each is proved in tactic form, so that `simp` rewrites with it and leaves no definitional step to
the kernel: comparing two updates by unfolding, the kernel would evaluate the bytes they write. -/

namespace Sys2Proof.Machine

/-- Two states are equal if they are field by field. With the lemmas below it turns a goal about a next
state into one goal per field that a command writes, where `rfl` would unfold what it writes. -/
@[ext] theorem State.ext {s t : State}
    (cmd : s.cmd = t.cmd) (status : s.status = t.status) (opa : s.opa = t.opa)
    (opb : s.opb = t.opb) (opc : s.opc = t.opc) (result : s.result = t.result)
    (lenLo : s.lenLo = t.lenLo) (lenHi : s.lenHi = t.lenHi) (origLo : s.origLo = t.origLo)
    (origHi : s.origHi = t.origHi) (padlen : s.padlen = t.padlen) (hexlen : s.hexlen = t.hexlen)
    (st : s.st = t.st) (w : s.w = t.w) (mem : s.mem = t.mem) (hidden : s.hidden = t.hidden)
    (inputs : s.inputs = t.inputs) (replies : s.replies = t.replies) (delay : s.delay = t.delay)
    (commands : s.commands = t.commands) :
    s = t := by
  cases s
  cases t
  simp only at *
  subst_vars
  rfl

section
variable (s : State) (f : Status)
@[simp] theorem State.setStatus_cmd : (s.setStatus f).cmd = s.cmd := by rfl
@[simp] theorem State.setStatus_status : (s.setStatus f).status = f := by rfl
@[simp] theorem State.setStatus_opa : (s.setStatus f).opa = s.opa := by rfl
@[simp] theorem State.setStatus_opb : (s.setStatus f).opb = s.opb := by rfl
@[simp] theorem State.setStatus_opc : (s.setStatus f).opc = s.opc := by rfl
@[simp] theorem State.setStatus_result : (s.setStatus f).result = s.result := by rfl
@[simp] theorem State.setStatus_lenLo : (s.setStatus f).lenLo = s.lenLo := by rfl
@[simp] theorem State.setStatus_lenHi : (s.setStatus f).lenHi = s.lenHi := by rfl
@[simp] theorem State.setStatus_origLo : (s.setStatus f).origLo = s.origLo := by rfl
@[simp] theorem State.setStatus_origHi : (s.setStatus f).origHi = s.origHi := by rfl
@[simp] theorem State.setStatus_padlen : (s.setStatus f).padlen = s.padlen := by rfl
@[simp] theorem State.setStatus_hexlen : (s.setStatus f).hexlen = s.hexlen := by rfl
@[simp] theorem State.setStatus_st : (s.setStatus f).st = s.st := by rfl
@[simp] theorem State.setStatus_w : (s.setStatus f).w = s.w := by rfl
@[simp] theorem State.setStatus_mem : (s.setStatus f).mem = s.mem := by rfl
@[simp] theorem State.setStatus_hidden : (s.setStatus f).hidden = s.hidden := by rfl
@[simp] theorem State.setStatus_inputs : (s.setStatus f).inputs = s.inputs := by rfl
@[simp] theorem State.setStatus_replies : (s.setStatus f).replies = s.replies := by rfl
@[simp] theorem State.setStatus_delay : (s.setStatus f).delay = s.delay := by rfl
@[simp] theorem State.setStatus_commands : (s.setStatus f).commands = s.commands := by rfl
end

section
variable (s : State) (v : Word)
@[simp] theorem State.setResult_cmd : (s.setResult v).cmd = s.cmd := by rfl
@[simp] theorem State.setResult_status : (s.setResult v).status = s.status := by rfl
@[simp] theorem State.setResult_opa : (s.setResult v).opa = s.opa := by rfl
@[simp] theorem State.setResult_opb : (s.setResult v).opb = s.opb := by rfl
@[simp] theorem State.setResult_opc : (s.setResult v).opc = s.opc := by rfl
@[simp] theorem State.setResult_result : (s.setResult v).result = some v := by rfl
@[simp] theorem State.setResult_lenLo : (s.setResult v).lenLo = s.lenLo := by rfl
@[simp] theorem State.setResult_lenHi : (s.setResult v).lenHi = s.lenHi := by rfl
@[simp] theorem State.setResult_origLo : (s.setResult v).origLo = s.origLo := by rfl
@[simp] theorem State.setResult_origHi : (s.setResult v).origHi = s.origHi := by rfl
@[simp] theorem State.setResult_padlen : (s.setResult v).padlen = s.padlen := by rfl
@[simp] theorem State.setResult_hexlen : (s.setResult v).hexlen = s.hexlen := by rfl
@[simp] theorem State.setResult_st : (s.setResult v).st = s.st := by rfl
@[simp] theorem State.setResult_w : (s.setResult v).w = s.w := by rfl
@[simp] theorem State.setResult_mem : (s.setResult v).mem = s.mem := by rfl
@[simp] theorem State.setResult_hidden : (s.setResult v).hidden = s.hidden := by rfl
@[simp] theorem State.setResult_inputs : (s.setResult v).inputs = s.inputs := by rfl
@[simp] theorem State.setResult_replies : (s.setResult v).replies = s.replies := by rfl
@[simp] theorem State.setResult_delay : (s.setResult v).delay = s.delay := by rfl
@[simp] theorem State.setResult_commands : (s.setResult v).commands = s.commands := by rfl
end

section
variable (s : State) (x : Eight Word)
@[simp] theorem State.setHash_cmd : (s.setHash x).cmd = s.cmd := by rfl
@[simp] theorem State.setHash_status : (s.setHash x).status = s.status := by rfl
@[simp] theorem State.setHash_opa : (s.setHash x).opa = s.opa := by rfl
@[simp] theorem State.setHash_opb : (s.setHash x).opb = s.opb := by rfl
@[simp] theorem State.setHash_opc : (s.setHash x).opc = s.opc := by rfl
@[simp] theorem State.setHash_result : (s.setHash x).result = s.result := by rfl
@[simp] theorem State.setHash_lenLo : (s.setHash x).lenLo = s.lenLo := by rfl
@[simp] theorem State.setHash_lenHi : (s.setHash x).lenHi = s.lenHi := by rfl
@[simp] theorem State.setHash_origLo : (s.setHash x).origLo = s.origLo := by rfl
@[simp] theorem State.setHash_origHi : (s.setHash x).origHi = s.origHi := by rfl
@[simp] theorem State.setHash_padlen : (s.setHash x).padlen = s.padlen := by rfl
@[simp] theorem State.setHash_hexlen : (s.setHash x).hexlen = s.hexlen := by rfl
@[simp] theorem State.setHash_st : (s.setHash x).st = eightMap some x := by rfl
@[simp] theorem State.setHash_w : (s.setHash x).w = s.w := by rfl
@[simp] theorem State.setHash_mem : (s.setHash x).mem = s.mem := by rfl
@[simp] theorem State.setHash_hidden : (s.setHash x).hidden = s.hidden := by rfl
@[simp] theorem State.setHash_inputs : (s.setHash x).inputs = s.inputs := by rfl
@[simp] theorem State.setHash_replies : (s.setHash x).replies = s.replies := by rfl
@[simp] theorem State.setHash_delay : (s.setHash x).delay = s.delay := by rfl
@[simp] theorem State.setHash_commands : (s.setHash x).commands = s.commands := by rfl
end

section
variable (s : State) (l : List Word)
@[simp] theorem State.setSchedule_cmd : (s.setSchedule l).cmd = s.cmd := by rfl
@[simp] theorem State.setSchedule_status : (s.setSchedule l).status = s.status := by rfl
@[simp] theorem State.setSchedule_opa : (s.setSchedule l).opa = s.opa := by rfl
@[simp] theorem State.setSchedule_opb : (s.setSchedule l).opb = s.opb := by rfl
@[simp] theorem State.setSchedule_opc : (s.setSchedule l).opc = s.opc := by rfl
@[simp] theorem State.setSchedule_result : (s.setSchedule l).result = s.result := by rfl
@[simp] theorem State.setSchedule_lenLo : (s.setSchedule l).lenLo = s.lenLo := by rfl
@[simp] theorem State.setSchedule_lenHi : (s.setSchedule l).lenHi = s.lenHi := by rfl
@[simp] theorem State.setSchedule_origLo : (s.setSchedule l).origLo = s.origLo := by rfl
@[simp] theorem State.setSchedule_origHi : (s.setSchedule l).origHi = s.origHi := by rfl
@[simp] theorem State.setSchedule_padlen : (s.setSchedule l).padlen = s.padlen := by rfl
@[simp] theorem State.setSchedule_hexlen : (s.setSchedule l).hexlen = s.hexlen := by rfl
@[simp] theorem State.setSchedule_st : (s.setSchedule l).st = s.st := by rfl
@[simp] theorem State.setSchedule_w : (s.setSchedule l).w = cells 64 l := by rfl
@[simp] theorem State.setSchedule_mem : (s.setSchedule l).mem = s.mem := by rfl
@[simp] theorem State.setSchedule_hidden : (s.setSchedule l).hidden = s.hidden := by rfl
@[simp] theorem State.setSchedule_inputs : (s.setSchedule l).inputs = s.inputs := by rfl
@[simp] theorem State.setSchedule_replies : (s.setSchedule l).replies = s.replies := by rfl
@[simp] theorem State.setSchedule_delay : (s.setSchedule l).delay = s.delay := by rfl
@[simp] theorem State.setSchedule_commands : (s.setSchedule l).commands = s.commands := by rfl
end

section
variable (s : State) (n : Nat)
@[simp] theorem State.setPadlen_cmd : (s.setPadlen n).cmd = s.cmd := by rfl
@[simp] theorem State.setPadlen_status : (s.setPadlen n).status = s.status := by rfl
@[simp] theorem State.setPadlen_opa : (s.setPadlen n).opa = s.opa := by rfl
@[simp] theorem State.setPadlen_opb : (s.setPadlen n).opb = s.opb := by rfl
@[simp] theorem State.setPadlen_opc : (s.setPadlen n).opc = s.opc := by rfl
@[simp] theorem State.setPadlen_result : (s.setPadlen n).result = s.result := by rfl
@[simp] theorem State.setPadlen_lenLo : (s.setPadlen n).lenLo = s.lenLo := by rfl
@[simp] theorem State.setPadlen_lenHi : (s.setPadlen n).lenHi = s.lenHi := by rfl
@[simp] theorem State.setPadlen_origLo : (s.setPadlen n).origLo = s.origLo := by rfl
@[simp] theorem State.setPadlen_origHi : (s.setPadlen n).origHi = s.origHi := by rfl
@[simp] theorem State.setPadlen_padlen : (s.setPadlen n).padlen = BitVec.ofNat 32 n := by rfl
@[simp] theorem State.setPadlen_hexlen : (s.setPadlen n).hexlen = s.hexlen := by rfl
@[simp] theorem State.setPadlen_st : (s.setPadlen n).st = s.st := by rfl
@[simp] theorem State.setPadlen_w : (s.setPadlen n).w = s.w := by rfl
@[simp] theorem State.setPadlen_mem : (s.setPadlen n).mem = s.mem := by rfl
@[simp] theorem State.setPadlen_hidden : (s.setPadlen n).hidden = s.hidden := by rfl
@[simp] theorem State.setPadlen_inputs : (s.setPadlen n).inputs = s.inputs := by rfl
@[simp] theorem State.setPadlen_replies : (s.setPadlen n).replies = s.replies := by rfl
@[simp] theorem State.setPadlen_delay : (s.setPadlen n).delay = s.delay := by rfl
@[simp] theorem State.setPadlen_commands : (s.setPadlen n).commands = s.commands := by rfl
end

section
variable (s : State) (b : Buf) (l : List Byte)
@[simp] theorem State.bufWrite_cmd : (s.bufWrite b l).cmd = s.cmd := by rfl
@[simp] theorem State.bufWrite_status : (s.bufWrite b l).status = s.status := by rfl
@[simp] theorem State.bufWrite_opa : (s.bufWrite b l).opa = s.opa := by rfl
@[simp] theorem State.bufWrite_opb : (s.bufWrite b l).opb = s.opb := by rfl
@[simp] theorem State.bufWrite_opc : (s.bufWrite b l).opc = s.opc := by rfl
@[simp] theorem State.bufWrite_result : (s.bufWrite b l).result = s.result := by rfl
@[simp] theorem State.bufWrite_lenLo : (s.bufWrite b l).lenLo = s.lenLo := by rfl
@[simp] theorem State.bufWrite_lenHi : (s.bufWrite b l).lenHi = s.lenHi := by rfl
@[simp] theorem State.bufWrite_origLo : (s.bufWrite b l).origLo = s.origLo := by rfl
@[simp] theorem State.bufWrite_origHi : (s.bufWrite b l).origHi = s.origHi := by rfl
@[simp] theorem State.bufWrite_padlen : (s.bufWrite b l).padlen = s.padlen := by rfl
@[simp] theorem State.bufWrite_hexlen : (s.bufWrite b l).hexlen = s.hexlen := by rfl
@[simp] theorem State.bufWrite_st : (s.bufWrite b l).st = s.st := by rfl
@[simp] theorem State.bufWrite_w : (s.bufWrite b l).w = s.w := by rfl
@[simp] theorem State.bufWrite_mem : (s.bufWrite b l).mem = Memory.writeBytes s.mem (bufBase b) l := by rfl
@[simp] theorem State.bufWrite_hidden : (s.bufWrite b l).hidden = s.hidden := by rfl
@[simp] theorem State.bufWrite_inputs : (s.bufWrite b l).inputs = s.inputs := by rfl
@[simp] theorem State.bufWrite_replies : (s.bufWrite b l).replies = s.replies := by rfl
@[simp] theorem State.bufWrite_delay : (s.bufWrite b l).delay = s.delay := by rfl
@[simp] theorem State.bufWrite_commands : (s.bufWrite b l).commands = s.commands := by rfl
end

section
variable (s : State) (x : Eight Word)
@[simp] theorem State.setSnap_cmd : (s.setSnap x).cmd = s.cmd := by rfl
@[simp] theorem State.setSnap_status : (s.setSnap x).status = s.status := by rfl
@[simp] theorem State.setSnap_opa : (s.setSnap x).opa = s.opa := by rfl
@[simp] theorem State.setSnap_opb : (s.setSnap x).opb = s.opb := by rfl
@[simp] theorem State.setSnap_opc : (s.setSnap x).opc = s.opc := by rfl
@[simp] theorem State.setSnap_result : (s.setSnap x).result = s.result := by rfl
@[simp] theorem State.setSnap_lenLo : (s.setSnap x).lenLo = s.lenLo := by rfl
@[simp] theorem State.setSnap_lenHi : (s.setSnap x).lenHi = s.lenHi := by rfl
@[simp] theorem State.setSnap_origLo : (s.setSnap x).origLo = s.origLo := by rfl
@[simp] theorem State.setSnap_origHi : (s.setSnap x).origHi = s.origHi := by rfl
@[simp] theorem State.setSnap_padlen : (s.setSnap x).padlen = s.padlen := by rfl
@[simp] theorem State.setSnap_hexlen : (s.setSnap x).hexlen = s.hexlen := by rfl
@[simp] theorem State.setSnap_st : (s.setSnap x).st = s.st := by rfl
@[simp] theorem State.setSnap_w : (s.setSnap x).w = s.w := by rfl
@[simp] theorem State.setSnap_mem : (s.setSnap x).mem = s.mem := by rfl
@[simp] theorem State.setSnap_hidden : (s.setSnap x).hidden = { s.hidden with snap := eightMap some x, round := some 63 } := by rfl
@[simp] theorem State.setSnap_inputs : (s.setSnap x).inputs = s.inputs := by rfl
@[simp] theorem State.setSnap_replies : (s.setSnap x).replies = s.replies := by rfl
@[simp] theorem State.setSnap_delay : (s.setSnap x).delay = s.delay := by rfl
@[simp] theorem State.setSnap_commands : (s.setSnap x).commands = s.commands := by rfl
end

section
variable (s : State) (j : Nat) (l : List Byte)
@[simp] theorem State.setBlock_cmd : (s.setBlock j l).cmd = s.cmd := by rfl
@[simp] theorem State.setBlock_status : (s.setBlock j l).status = s.status := by rfl
@[simp] theorem State.setBlock_opa : (s.setBlock j l).opa = s.opa := by rfl
@[simp] theorem State.setBlock_opb : (s.setBlock j l).opb = s.opb := by rfl
@[simp] theorem State.setBlock_opc : (s.setBlock j l).opc = s.opc := by rfl
@[simp] theorem State.setBlock_result : (s.setBlock j l).result = s.result := by rfl
@[simp] theorem State.setBlock_lenLo : (s.setBlock j l).lenLo = s.lenLo := by rfl
@[simp] theorem State.setBlock_lenHi : (s.setBlock j l).lenHi = s.lenHi := by rfl
@[simp] theorem State.setBlock_origLo : (s.setBlock j l).origLo = s.origLo := by rfl
@[simp] theorem State.setBlock_origHi : (s.setBlock j l).origHi = s.origHi := by rfl
@[simp] theorem State.setBlock_padlen : (s.setBlock j l).padlen = s.padlen := by rfl
@[simp] theorem State.setBlock_hexlen : (s.setBlock j l).hexlen = s.hexlen := by rfl
@[simp] theorem State.setBlock_st : (s.setBlock j l).st = s.st := by rfl
@[simp] theorem State.setBlock_w : (s.setBlock j l).w = s.w := by rfl
@[simp] theorem State.setBlock_mem : (s.setBlock j l).mem = s.mem := by rfl
@[simp] theorem State.setBlock_hidden : (s.setBlock j l).hidden = { s.hidden with blockIndex := some j, blockLatch := cells 64 l } := by rfl
@[simp] theorem State.setBlock_inputs : (s.setBlock j l).inputs = s.inputs := by rfl
@[simp] theorem State.setBlock_replies : (s.setBlock j l).replies = s.replies := by rfl
@[simp] theorem State.setBlock_delay : (s.setBlock j l).delay = s.delay := by rfl
@[simp] theorem State.setBlock_commands : (s.setBlock j l).commands = s.commands := by rfl
end

section
variable (s : State) (v : Word)
@[simp] theorem State.latch_cmd : (s.latch v).cmd = v := by rfl
@[simp] theorem State.latch_status : (s.latch v).status = statusLatched := by rfl
@[simp] theorem State.latch_opa : (s.latch v).opa = s.opa := by rfl
@[simp] theorem State.latch_opb : (s.latch v).opb = s.opb := by rfl
@[simp] theorem State.latch_opc : (s.latch v).opc = s.opc := by rfl
@[simp] theorem State.latch_result : (s.latch v).result = s.result := by rfl
@[simp] theorem State.latch_lenLo : (s.latch v).lenLo = s.lenLo := by rfl
@[simp] theorem State.latch_lenHi : (s.latch v).lenHi = s.lenHi := by rfl
@[simp] theorem State.latch_origLo : (s.latch v).origLo = s.origLo := by rfl
@[simp] theorem State.latch_origHi : (s.latch v).origHi = s.origHi := by rfl
@[simp] theorem State.latch_padlen : (s.latch v).padlen = s.padlen := by rfl
@[simp] theorem State.latch_hexlen : (s.latch v).hexlen = s.hexlen := by rfl
@[simp] theorem State.latch_st : (s.latch v).st = s.st := by rfl
@[simp] theorem State.latch_w : (s.latch v).w = s.w := by rfl
@[simp] theorem State.latch_mem : (s.latch v).mem = s.mem := by rfl
@[simp] theorem State.latch_hidden : (s.latch v).hidden = s.hidden := by rfl
@[simp] theorem State.latch_inputs : (s.latch v).inputs = s.inputs := by rfl
@[simp] theorem State.latch_replies : (s.latch v).replies = s.replies := by rfl
@[simp] theorem State.latch_delay : (s.latch v).delay = Config.cmdLatency s.commands := by rfl
@[simp] theorem State.latch_commands : (s.latch v).commands = s.commands + 1 := by rfl
end

end Sys2Proof.Machine
end

