-- ==== Sys2Proof/Laws/Results.lean ====
section
/-! SUPPORT. What a meaning can answer: the inversion lemmas of the shared operations it is built from,
and the one inversion lemma of all meanings. -/

namespace Sys2Proof.Machine

@[simp] theorem complete_eq_next (s t : State) :
    complete s = .next t ↔ t = s.setStatus statusSuccess := by
  simp [complete, eq_comm]

@[simp] theorem raiseError_eq_next (e : ErrCode) (s t : State) :
    raiseError e s = .next t ↔ t = s.setStatus (statusFailed e) := by
  simp [raiseError, eq_comm]

@[simp] theorem withOperand_some {α : Type} (v : α) (k : α → Result) : withOperand (some v) k = k v := rfl

@[simp] theorem withOperand_none {α : Type} (k : α → Result) :
    withOperand none k = .fault .unwritten := rfl

/-- A meaning that reads an operand goes on only with its value. -/
theorem withOperand_eq_next {α : Type} {x : Option α} {k : α → Result} {t : State} :
    withOperand x k = .next t ↔ ∃ v, x = some v ∧ k v = .next t := by
  cases x <;> simp

/-- A command's outcomes (R261, R264, R266): it succeeds, it ends with an error that changes nothing but
`STATUS` and has one of the codes the commands' own checks raise, or it is `F_UNWRITTEN`. -/
inductive Ends (s : State) : Result → Prop where
  | success (t : State) (h : t.status = statusSuccess) : Ends s (.next t)
  | error (e : ErrCode) (h : e = .badRotate ∨ e = .lengthRange ∨ e = .invalidDigestEncoding) :
      Ends s (.next (s.setStatus (statusFailed e)))
  | unwritten : Ends s (.fault .unwritten)

theorem Ends.complete (s t : State) : Ends s (complete t) := .success _ rfl

theorem Ends.raiseError {e : ErrCode} (s : State)
    (h : e = .badRotate ∨ e = .lengthRange ∨ e = .invalidDigestEncoding) : Ends s (raiseError e s) :=
  .error e h

theorem Ends.withOperand {α : Type} {s : State} (x : Option α) {k : α → Result}
    (h : ∀ v, Ends s (k v)) : Ends s (withOperand x k) := by
  cases x with
  | none => exact .unwritten
  | some v => exact h v

/-- Every command ends in one of the three ways. -/
theorem exec_ends (i : Instr) (s : State) : Ends s (exec i s) := by
  cases i with
  | nop => exact .complete _ _
  | add => exact .withOperand _ fun _ => .withOperand _ fun _ => .complete _ _
  | rotr n =>
    simp only [exec, execRotr]
    split
    · exact .raiseError _ (by decide)
    · exact .withOperand _ fun _ => .complete _ _
  | ssig0 => exact .withOperand _ fun _ => .complete _ _
  | ssig1 => exact .withOperand _ fun _ => .complete _ _
  | bsig0 => exact .withOperand _ fun _ => .complete _ _
  | bsig1 => exact .withOperand _ fun _ => .complete _ _
  | ch => exact .withOperand _ fun _ => .withOperand _ fun _ => .withOperand _ fun _ => .complete _ _
  | maj => exact .withOperand _ fun _ => .withOperand _ fun _ => .withOperand _ fun _ => .complete _ _
  | sched => exact .withOperand _ fun _ => .complete _ _
  | round => exact .withOperand _ fun _ => .withOperand _ fun _ => .withOperand _ fun _ => .complete _ _
  | compress => exact .withOperand _ fun _ => .withOperand _ fun _ => .complete _ _
  | pad => exact .complete _ _
  | init => exact .complete _ _
  | serial => exact .withOperand _ fun _ => .complete _ _
  | hash =>
    simp only [exec, execHash]
    split
    · exact .raiseError _ (by decide)
    · exact .withOperand _ fun _ => .complete _ _
  | deser => exact .withOperand _ fun _ => .complete _ _
  | recoverhex =>
    simp only [exec, execRecoverhex]
    split
    · exact .raiseError _ (by decide)
    · refine .withOperand _ fun h => ?_
      split
      · exact .raiseError _ (by decide)
      · exact .complete _ _
  | hexenc => exact .withOperand _ fun _ => .complete _ _
  | forge =>
    simp only [exec, execForge]
    split
    · exact .raiseError _ (by decide)
    · split
      · exact .raiseError _ (by decide)
      · refine .withOperand _ fun h => .withOperand _ fun x => ?_
        split
        · exact .raiseError _ (by decide)
        · exact .complete _ _

end Sys2Proof.Machine
end

