-- ==== Sys2Proof/Laws/Checks.lean ====
section
/-! SUPPORT. The check order of the commands, once for all of them. -/

namespace Sys2Proof.Machine

/-- An even number of characters decodes exactly where all are hex (R222). -/
theorem hexPairs_isNone {h : List Byte} (he : h.length % 2 = 0) :
    (hexPairs h).isNone = h.any (fun c => (nib c).isNone) := by
  fun_induction hexPairs h with
  | case1 => rfl
  | case2 => simp at he
  | case3 hi lo rest x y d hd hy hd' ih =>
    have := ih (by simp only [List.length_cons] at he; omega)
    rw [hd] at this
    simp only [Option.isNone_some, List.any_cons, hd', hy]; simpa using this
  | case4 hi lo rest hno ih =>
    have := ih (by simp only [List.length_cons] at he; omega)
    simp only [List.any_cons, ← this]
    cases hx : nib hi with
    | none => rfl
    | some x => cases hy : nib lo with
      | none => simp
      | some y => cases hd : hexPairs rest with
        | none => simp
        | some d => exact absurd hd (hno x y d hx hy)

theorem hexDecode_isNone {h : List Byte} (he : h.length = 64) :
    (hexDecode h).isNone = h.any (fun c => (nib c).isNone) := by
  unfold hexDecode
  rw [if_neg (by simp [he])]
  exact hexPairs_isNone (by omega)

/-- Steps 4 to 9 of the check order for every command (R264, R265): which error turns it away, that an
operand cell at `⊥` is `F_UNWRITTEN`, that a character that is not hex is an error, and that it succeeds
otherwise. -/
theorem exec_checks (i : Instr) (s : State) :
    if turnedAway i s = true then
      ∃ e, exec i s = raiseError e s ∧
        e = (if i = .rotr 0 then .badRotate
          else if (i = .hash ∨ i = .forge) ∧ Config.msgbufBytes < s.len then .lengthRange
          else .invalidDigestEncoding)
    else if operandsHeld i s = false then exec i s = .fault .unwritten
    else if (i = .recoverhex ∨ i = .forge) ∧ ((s.hexin.getD []).any fun c => (nib c).isNone) = true then
      exec i s = raiseError .invalidDigestEncoding s
    else ∃ t, exec i s = .next t ∧ t.status = statusSuccess := by
  have W : ∀ {α : Type} (x : Option α), x = none ∨ ∃ v, x = some v := fun x => by cases x <;> simp
  cases i with
  | nop => exact ⟨_, rfl, rfl⟩
  | add => rcases W s.opa with h | ⟨a, h⟩ <;> rcases W s.opb with h' | ⟨b, h'⟩ <;>
      simp [turnedAway, operandsHeld, exec, execAdd, complete, h, h']
  | rotr n =>
    by_cases hn : n = 0
    · subst hn; simp [turnedAway, exec, execRotr]
    · have hn : ¬ n = 0#5 := hn
      rcases W s.opa with h | ⟨a, h⟩ <;>
      simp [turnedAway, operandsHeld, exec, execRotr, primitive1, complete, hn, h]
  | ssig0 => rcases W s.opa with h | ⟨a, h⟩ <;>
      simp [turnedAway, operandsHeld, exec, execSsig0, primitive1, complete, h]
  | ssig1 => rcases W s.opa with h | ⟨a, h⟩ <;>
      simp [turnedAway, operandsHeld, exec, execSsig1, primitive1, complete, h]
  | bsig0 => rcases W s.opa with h | ⟨a, h⟩ <;>
      simp [turnedAway, operandsHeld, exec, execBsig0, primitive1, complete, h]
  | bsig1 => rcases W s.opa with h | ⟨a, h⟩ <;>
      simp [turnedAway, operandsHeld, exec, execBsig1, primitive1, complete, h]
  | ch =>
    rcases W s.opa with h | ⟨a, h⟩ <;> rcases W s.opb with h' | ⟨b, h'⟩ <;>
      rcases W s.opc with h'' | ⟨c, h''⟩ <;>
      simp [turnedAway, operandsHeld, exec, execCh, primitive3, complete, h, h', h'']
  | maj =>
    rcases W s.opa with h | ⟨a, h⟩ <;> rcases W s.opb with h' | ⟨b, h'⟩ <;>
      rcases W s.opc with h'' | ⟨c, h''⟩ <;>
      simp [turnedAway, operandsHeld, exec, execMaj, primitive3, complete, h, h', h'']
  | sched => rcases W s.block with h | ⟨a, h⟩ <;>
      simp [turnedAway, operandsHeld, exec, execSched, complete, h]
  | round =>
    rcases W s.hashWords with h | ⟨a, h⟩ <;> rcases W s.opa with h' | ⟨b, h'⟩ <;>
      rcases W s.opb with h'' | ⟨c, h''⟩ <;>
      simp [turnedAway, operandsHeld, exec, execRound, complete, h, h', h'']
  | compress => rcases W s.hashWords with h | ⟨a, h⟩ <;> rcases W s.block with h' | ⟨b, h'⟩ <;>
      simp [turnedAway, operandsHeld, exec, execCompress, complete, h, h']
  | pad => exact ⟨_, rfl, rfl⟩
  | init => exact ⟨_, rfl, rfl⟩
  | serial => rcases W s.hashWords with h | ⟨a, h⟩ <;>
      simp [turnedAway, operandsHeld, exec, execSerial, complete, h]
  | hash =>
    by_cases hl : Config.msgbufBytes < s.len
    · simp [turnedAway, exec, execHash, hl]
    · rcases W s.message with h | ⟨a, h⟩ <;>
      simp [turnedAway, operandsHeld, exec, execHash, complete, h, hl]
  | deser => rcases W s.digest with h | ⟨a, h⟩ <;>
      simp [turnedAway, operandsHeld, exec, execDeser, complete, h]
  | hexenc => rcases W s.digest with h | ⟨a, h⟩ <;>
      simp [turnedAway, operandsHeld, exec, execHexenc, complete, h]
  | recoverhex =>
    by_cases hl : s.hexlen = 64
    · rcases W s.hexin with h | ⟨a, h⟩
      · simp [turnedAway, operandsHeld, exec, execRecoverhex, h, hl]
      · have k := hexDecode_isNone (Memory.readBytes_length h)
        simp only [turnedAway, operandsHeld, exec, execRecoverhex, h, hl,
          withOperand_some, Option.getD_some, ← k]
        cases hexDecode a <;> simp [complete]
    · have hl : ¬ s.hexlen = 64#32 := hl
      simp [turnedAway, exec, execRecoverhex, hl]
  | forge =>
    by_cases hm : Config.msgbufBytes < s.len
    · simp [turnedAway, exec, execForge, hm]
    · by_cases hl : s.hexlen = 64
      · rcases W s.hexin with h | ⟨a, h⟩ <;> rcases W s.message with h' | ⟨b, h'⟩
        · simp [turnedAway, operandsHeld, exec, execForge, h, hl, hm]
        · simp [turnedAway, operandsHeld, exec, execForge, h, hl, hm]
        · simp [turnedAway, operandsHeld, exec, execForge, h, h', hl, hm]
        · have k := hexDecode_isNone (Memory.readBytes_length h)
          simp only [turnedAway, operandsHeld, exec, execForge, h, h', hl, hm,
            withOperand_some, Option.getD_some, ← k]
          cases hexDecode a <;> simp [complete]
      · have hl : ¬ s.hexlen = 64#32 := hl
        simp [turnedAway, exec, execForge, hl, hm]
end Sys2Proof.Machine
end

