-- ==== Sys2Proof/Laws/PerInstr.lean ====
section
/-! SUPPORT. Per command: its word has the fields of R90, with the reserved field zero and `N` zero in every
command but ROTR. -/

namespace Sys2Proof.Laws.EncodedFields

/-- The three fields of a command's word (R90, R94). -/
def Statement (i : Instr) : Prop :=
  opField (encode i) = i.opcode ∧ nField (encode i) = i.rotateField ∧ rsvField (encode i) = 0

theorem nop : Statement .nop := ⟨rfl, rfl, rfl⟩
theorem add : Statement .add := ⟨rfl, rfl, rfl⟩
theorem rotr (n : BitVec 5) : Statement (.rotr n) := by
  revert n
  unfold Statement
  decide
theorem ssig0 : Statement .ssig0 := ⟨rfl, rfl, rfl⟩
theorem ssig1 : Statement .ssig1 := ⟨rfl, rfl, rfl⟩
theorem bsig0 : Statement .bsig0 := ⟨rfl, rfl, rfl⟩
theorem bsig1 : Statement .bsig1 := ⟨rfl, rfl, rfl⟩
theorem ch : Statement .ch := ⟨rfl, rfl, rfl⟩
theorem maj : Statement .maj := ⟨rfl, rfl, rfl⟩
theorem sched : Statement .sched := ⟨rfl, rfl, rfl⟩
theorem round : Statement .round := ⟨rfl, rfl, rfl⟩
theorem compress : Statement .compress := ⟨rfl, rfl, rfl⟩
theorem pad : Statement .pad := ⟨rfl, rfl, rfl⟩
theorem init : Statement .init := ⟨rfl, rfl, rfl⟩
theorem serial : Statement .serial := ⟨rfl, rfl, rfl⟩
theorem hash : Statement .hash := ⟨rfl, rfl, rfl⟩
theorem deser : Statement .deser := ⟨rfl, rfl, rfl⟩
theorem recoverhex : Statement .recoverhex := ⟨rfl, rfl, rfl⟩
theorem hexenc : Statement .hexenc := ⟨rfl, rfl, rfl⟩
theorem forge : Statement .forge := ⟨rfl, rfl, rfl⟩

end Sys2Proof.Laws.EncodedFields
end

