-- ==== Sys2Proof/Laws/Decode.lean ====
section
/-! SUPPORT. The decoder: the fields of a command word as arithmetic, which `OP` values are assigned, and
what an assigned one gives. -/

namespace Sys2Proof

theorem opField_toNat (w : Word) : (opField w).toNat = w.toNat % 256 := by
  simp [opField, BitVec.extractLsb'_toNat]

theorem nField_toNat (w : Word) : (nField w).toNat = w.toNat / 256 % 32 := by
  simp [nField, BitVec.extractLsb'_toNat, Nat.shiftRight_eq_div_pow]

theorem rsvField_toNat (w : Word) : (rsvField w).toNat = w.toNat / 8192 := by
  have := w.isLt
  simp only [rsvField, BitVec.extractLsb'_toNat, Nat.shiftRight_eq_div_pow]
  omega

/-- A command word is its three fields (R90). -/
theorem eq_of_fields {w v : Word} (ho : opField w = opField v) (hn : nField w = nField v)
    (hr : rsvField w = rsvField v) : w = v := by
  have a := congrArg BitVec.toNat ho
  have b := congrArg BitVec.toNat hn
  have c := congrArg BitVec.toNat hr
  simp only [opField_toNat, nField_toNat, rsvField_toNat] at a b c
  apply BitVec.eq_of_toNat_eq
  omega

/-- The unassigned `OP` values (R95, R97). -/
theorem assignedTo_eq_none {op : BitVec 8} {n : BitVec 5} :
    assignedTo op n = none ↔ op.toNat ∉ [0x00, 0x01, 0x02, 0x03, 0x04, 0x05, 0x06, 0x07, 0x08, 0x10,
      0x11, 0x12, 0x18, 0x20, 0x21, 0x22, 0x30, 0x31, 0x32, 0x33] := by
  unfold assignedTo
  split
  all_goals first
    | (rename_i h; rw [h]; simp)
    | simp_all

/-- An assigned `OP` value gives the command with that opcode, and `N` to ROTR only (R91, R92). -/
theorem assignedTo_eq_some {op : BitVec 8} {n : BitVec 5} {i : Instr}
    (h : assignedTo op n = some i) :
    i.opcode = op ∧ i.rotateField = (if op.toNat = 2 then n else 0) := by
  have key : ∀ k : Nat, op.toNat = k → op = BitVec.ofNat 8 k := fun k hk => by
    apply BitVec.eq_of_toNat_eq
    have := op.isLt
    simp only [BitVec.toNat_ofNat]
    omega
  unfold assignedTo at h
  split at h <;> (try cases h) <;>
    (rename_i hk
     obtain rfl := key _ hk
     simp [Instr.opcode, Instr.rotateField])

/-- The fields of every command's word. -/
theorem encode_fields (i : Instr) : Laws.EncodedFields.Statement i := by
  cases i
  case rotr n => exact Laws.EncodedFields.rotr n
  all_goals exact ⟨rfl, rfl, rfl⟩

end Sys2Proof
end

