-- ==== Sys2Proof/Laws/Effects.lean ====
section
/-! SUPPORT. One lemma per meaning: every next state it answers, on which operands, and its errors. A
proof about a command cites its lemma and does not unfold the meaning. -/

namespace Sys2Proof.Machine

variable {s t : State}

theorem execNop_next : execNop s = .next t ↔ t = s.setStatus statusSuccess := complete_eq_next s t

theorem primitive1_next {f : Word → Word} :
    primitive1 f s = .next t ↔ ∃ x, s.opa = some x ∧ t = (s.setResult (f x)).setStatus statusSuccess := by
  simp [primitive1, withOperand_eq_next]

theorem primitive3_next {f : Word → Word → Word → Word} :
    primitive3 f s = .next t ↔ ∃ x y z, s.opa = some x ∧ s.opb = some y ∧ s.opc = some z ∧
      t = (s.setResult (f x y z)).setStatus statusSuccess := by
  simp [primitive3, withOperand_eq_next]

theorem execAdd_next : execAdd s = .next t ↔ ∃ a b, s.opa = some a ∧ s.opb = some b ∧
    t = (s.setResult (addMod32 a b)).setStatus statusSuccess := by
  simp [execAdd, withOperand_eq_next]

theorem execRotr_next {n : BitVec 5} : execRotr n s = .next t ↔
    (n = 0 ∧ t = s.setStatus (statusFailed .badRotate)) ∨
    (n ≠ 0 ∧ ∃ x, s.opa = some x ∧
      t = (s.setResult (rotr x (rotateAmount n))).setStatus statusSuccess) := by
  unfold execRotr
  by_cases hn : n = 0 <;> simp only [hn, if_true, if_false, primitive1_next, raiseError_eq_next,
    ne_eq, not_true, not_false_iff, true_and, false_and, or_false, false_or]

theorem execSsig0_next : execSsig0 s = .next t ↔ ∃ x, s.opa = some x ∧
    t = (s.setResult (littleSigma0 x)).setStatus statusSuccess := primitive1_next

theorem execSsig1_next : execSsig1 s = .next t ↔ ∃ x, s.opa = some x ∧
    t = (s.setResult (littleSigma1 x)).setStatus statusSuccess := primitive1_next

theorem execBsig0_next : execBsig0 s = .next t ↔ ∃ x, s.opa = some x ∧
    t = (s.setResult (bigSigma0 x)).setStatus statusSuccess := primitive1_next

theorem execBsig1_next : execBsig1 s = .next t ↔ ∃ x, s.opa = some x ∧
    t = (s.setResult (bigSigma1 x)).setStatus statusSuccess := primitive1_next

theorem execCh_next : execCh s = .next t ↔ ∃ x y z, s.opa = some x ∧ s.opb = some y ∧
    s.opc = some z ∧ t = (s.setResult (choice x y z)).setStatus statusSuccess := primitive3_next

theorem execMaj_next : execMaj s = .next t ↔ ∃ x y z, s.opa = some x ∧ s.opb = some y ∧
    s.opc = some z ∧ t = (s.setResult (majority x y z)).setStatus statusSuccess := primitive3_next

theorem execSched_next : execSched s = .next t ↔ ∃ blk, s.block = some blk ∧
    t = (s.setSchedule (schedule blk)).setStatus statusSuccess := by
  simp [execSched, withOperand_eq_next]

theorem execRound_next : execRound s = .next t ↔ ∃ x k w, s.hashWords = some x ∧ s.opa = some k ∧
    s.opb = some w ∧ t = (s.setHash (compressionRound x k w)).setStatus statusSuccess := by
  simp [execRound, withOperand_eq_next]

theorem execCompress_next : execCompress s = .next t ↔ ∃ x blk, s.hashWords = some x ∧
    s.block = some blk ∧ t = (((s.setSchedule (compress x blk).schedule).setHash
      (compress x blk).state).setSnap (compress x blk).snap).setStatus statusSuccess := by
  simp [execCompress, withOperand_eq_next]

theorem execPad_next : execPad s = .next t ↔ t = (s.setPadding s.len).setStatus statusSuccess :=
  complete_eq_next _ _

theorem execInit_next : execInit s = .next t ↔ t = (s.setHash initVector).setStatus statusSuccess :=
  complete_eq_next _ _

theorem execSerial_next : execSerial s = .next t ↔ ∃ x, s.hashWords = some x ∧
    t = (s.bufWrite .digest (serialize x)).setStatus statusSuccess := by
  simp [execSerial, withOperand_eq_next]

theorem execHash_next : execHash s = .next t ↔
    (Config.msgbufBytes < s.len ∧ t = s.setStatus (statusFailed .lengthRange)) ∨
    (s.len ≤ Config.msgbufBytes ∧ ∃ m, s.message = some m ∧
      t = ((s.setPadding s.len).setCompressed (hashRun m) (hashBlocks m)).setStatus statusSuccess) := by
  unfold execHash
  split
  · simp [*]
  · simp [*, withOperand_eq_next, Nat.not_lt.mp ‹_›]

theorem execDeser_next : execDeser s = .next t ↔ ∃ d, s.digest = some d ∧
    t = (s.setHash (deserialize d)).setStatus statusSuccess := by
  simp [execDeser, withOperand_eq_next]

theorem execRecoverhex_next : execRecoverhex s = .next t ↔
    (s.hexlen ≠ 64 ∧ t = s.setStatus (statusFailed .invalidDigestEncoding)) ∨
    (s.hexlen = 64 ∧ ∃ h, s.hexin = some h ∧
      ((hexDecode h = none ∧ t = s.setStatus (statusFailed .invalidDigestEncoding)) ∨
       ∃ d, hexDecode h = some d ∧ t = (s.setHash (deserialize d)).setStatus statusSuccess)) := by
  unfold execRecoverhex
  by_cases hx : s.hexlen = 64
  · simp only [withOperand_eq_next, hx, ne_eq, not_true, if_false, false_and, true_and, false_or]
    refine exists_congr fun h => and_congr_right fun _ => ?_
    cases hexDecode h <;> simp
  · simp only [hx, ne_eq, not_false_iff, if_true, raiseError_eq_next, true_and, false_and, or_false]

theorem execHexenc_next : execHexenc s = .next t ↔ ∃ d, s.digest = some d ∧
    t = (s.bufWrite .hexout (hexEncode d)).setStatus statusSuccess := by
  simp [execHexenc, withOperand_eq_next]

theorem execForge_next : execForge s = .next t ↔
    (Config.msgbufBytes < s.len ∧ t = s.setStatus (statusFailed .lengthRange)) ∨
    (s.len ≤ Config.msgbufBytes ∧ s.hexlen ≠ 64 ∧
      t = s.setStatus (statusFailed .invalidDigestEncoding)) ∨
    (s.len ≤ Config.msgbufBytes ∧ s.hexlen = 64 ∧ ∃ h x, s.hexin = some h ∧ s.message = some x ∧
      ((hexDecode h = none ∧ t = s.setStatus (statusFailed .invalidDigestEncoding)) ∨
       ∃ d, hexDecode h = some d ∧ t =
        (((s.setPadding (extendedLength s.origLen x.length)).setCompressed (forgeRun d s.origLen x)
          (forgeBlocks s.origLen x)).bufWrite .hexout
            (hexEncode (serialize (forgeRun d s.origLen x).state))).setStatus statusSuccess)) := by
  unfold execForge
  by_cases hl : Config.msgbufBytes < s.len
  · simp only [hl, Nat.not_le.mpr hl, if_true, raiseError_eq_next, true_and, false_and, or_false]
  · by_cases hx : s.hexlen = 64
    · simp only [withOperand_eq_next, hl, hx, Nat.not_lt.mp hl, ne_eq, not_true, if_false, false_and,
        and_false, true_and, false_or, exists_and_left]
      refine exists_congr fun h => and_congr_right fun _ => exists_congr fun x =>
        and_congr_right fun _ => ?_
      cases hexDecode h <;> simp
    · simp only [hl, Nat.not_lt.mp hl, hx, ne_eq, not_false_iff, if_true, if_false,
        raiseError_eq_next, true_and, false_and, or_false, false_or]

end Sys2Proof.Machine
end

