-- ==== Sys2Proof/Laws/Words.lean ====
section
/-! SUPPORT. Words and bytes, eight-slot records and cell arrays: lengths, single elements, and which
conversions undo each other. -/

namespace Sys2Proof.Machine

theorem be32_toNat (a b c d : Byte) :
    (be32 a b c d).toNat = a.toNat * 2 ^ 24 + b.toNat * 2 ^ 16 + c.toNat * 2 ^ 8 + d.toNat := by
  have ha := a.isLt
  have hb := b.isLt
  have hc := c.isLt
  have hd := d.isLt
  simp only [be32, BitVec.toNat_ofNat]
  omega

/-- A byte of a bit vector as a quotient. -/
theorem extractByte {n : Nat} (x : BitVec n) (k : Nat) :
    x.extractLsb' k 8 = BitVec.ofNat 8 (x.toNat / 2 ^ k) := by
  apply BitVec.eq_of_toNat_eq
  simp [BitVec.extractLsb'_toNat, Nat.shiftRight_eq_div_pow]

theorem ofNat_eq_byte {n : Nat} {a : Byte} (h : n % 256 = a.toNat) : BitVec.ofNat 8 n = a := by
  apply BitVec.eq_of_toNat_eq
  simpa using h

theorem be32Bytes_be32 (a b c d : Byte) : be32Bytes (be32 a b c d) = [a, b, c, d] := by
  have ha := a.isLt
  have hb := b.isLt
  have hc := c.isLt
  have hd := d.isLt
  have e := be32_toNat a b c d
  simp only [be32Bytes, extractByte]
  rw [ofNat_eq_byte (a := a) (by omega), ofNat_eq_byte (a := b) (by omega),
    ofNat_eq_byte (a := c) (by omega), ofNat_eq_byte (a := d) (by omega)]

theorem be32_be32Bytes (x : Word) :
    be32 (x.extractLsb' 24 8) (x.extractLsb' 16 8) (x.extractLsb' 8 8) (x.extractLsb' 0 8) = x := by
  have hx := x.isLt
  apply BitVec.eq_of_toNat_eq
  simp only [be32_toNat, BitVec.extractLsb'_toNat, Nat.shiftRight_eq_div_pow]
  omega

@[simp] theorem be32Bytes_length (x : Word) : (be32Bytes x).length = 4 := rfl

@[simp] theorem be64Bytes_length (v : Nat) : (be64Bytes v).length = 8 := rfl

/-- A byte string no four bytes can be cut from is shorter than four. -/
theorem length_lt_four {l : List Byte}
    (h : ∀ (b0 b1 b2 b3 : Byte) (rest : List Byte), l = b0 :: b1 :: b2 :: b3 :: rest → False) :
    l.length < 4 := by
  rcases l with _ | ⟨a, _ | ⟨b, _ | ⟨c, _ | ⟨d, r⟩⟩⟩⟩
  · simp
  · simp
  · simp
  · simp
  · exact (h a b c d r rfl).elim

theorem wordsOf_length (l : List Byte) : (wordsOf l).length = l.length / 4 := by
  fun_induction wordsOf l with
  | case1 b0 b1 b2 b3 rest ih =>
    simp only [List.length_cons, ih]
    omega
  | case2 l h =>
    have := length_lt_four h
    simp only [List.length_nil]
    omega

/-- Word `j` is `BE32` of the bytes `4j` to `4j + 3`. -/
theorem wordsOf_getD (l : List Byte) (j : Nat) (h : 4 * j + 3 < l.length) :
    (wordsOf l).getD j 0 =
      be32 (l.getD (4 * j) 0) (l.getD (4 * j + 1) 0) (l.getD (4 * j + 2) 0) (l.getD (4 * j + 3) 0) := by
  fun_induction wordsOf l generalizing j with
  | case1 b0 b1 b2 b3 rest ih =>
    cases j with
    | zero => simp
    | succ j =>
      simp only [List.length_cons] at h
      rw [List.getD_cons_succ, ih j (by omega)]
      have e : ∀ k, (b0 :: b1 :: b2 :: b3 :: rest).getD (4 * (j + 1) + k) 0 = rest.getD (4 * j + k) 0 := by
        intro k
        rw [show 4 * (j + 1) + k = 4 * j + k + 1 + 1 + 1 + 1 by omega]
        simp only [List.getD_cons_succ]
      rw [e 1, e 2, e 3]
      exact congrArg (be32 · _ _ _) (e 0).symm
  | case2 l hl =>
    have := length_lt_four hl
    omega

theorem wordsOf_flatMap_be32Bytes (l : List Word) : wordsOf (l.flatMap be32Bytes) = l := by
  induction l with
  | nil => rfl
  | cons x l ih =>
    rw [List.flatMap_cons]
    show be32 _ _ _ _ :: wordsOf (l.flatMap be32Bytes) = x :: l
    rw [ih, be32_be32Bytes]

theorem flatMap_be32Bytes_wordsOf (l : List Byte) (h : l.length % 4 = 0) :
    (wordsOf l).flatMap be32Bytes = l := by
  fun_induction wordsOf l with
  | case1 b0 b1 b2 b3 rest ih =>
    simp only [List.length_cons] at h
    rw [List.flatMap_cons, be32Bytes_be32, ih (by omega)]
    rfl
  | case2 l hl =>
    have := length_lt_four hl
    have : l = [] := List.length_eq_zero_iff.mp (by omega)
    rw [this]
    rfl

@[simp] theorem eightAll_map_some {α : Type} (x : Eight α) : eightAll (eightMap some x) = some x := rfl

theorem eightAll_eq_some_iff {α : Type} (c : Eight (Option α)) (x : Eight α) :
    eightAll c = some x ↔ c = eightMap some x := by
  obtain ⟨c0, c1, c2, c3, c4, c5, c6, c7⟩ := c
  constructor
  · intro h
    cases c0 <;> cases c1 <;> cases c2 <;> cases c3 <;> cases c4 <;> cases c5 <;> cases c6 <;>
      cases c7 <;> simp only [eightAll, Option.some.injEq, reduceCtorEq] at h
    subst h
    rfl
  · rintro h
    rw [h, eightAll_map_some]

/-- One empty cell is enough. -/
theorem eightAll_eq_none {α : Type} {c : Eight (Option α)} {i : Nat} (h : eightAt c i = none) :
    eightAll c = none := by
  cases e : eightAll c with
  | none => rfl
  | some x =>
    rw [(eightAll_eq_some_iff c x).mp e] at h
    unfold eightAt at h
    split at h <;> simp [eightMap] at h

theorem cells_getElem {α : Type} (n : Nat) (l : List α) (i : Nat) (h : i < n) :
    (cells n l)[i] = l[i]? := by
  simp [cells]

/-- Cells written from a list that is long enough all hold a value. -/
theorem cells_eq_ofFn {α : Type} (n : Nat) (l : List α) (d : α) (h : n ≤ l.length) :
    cells n l = Vector.ofFn (fun i : Fin n => some (l.getD i d)) := by
  ext i hi
  have hl : i < l.length := by omega
  simp [cells_getElem n l i hi, hl]

@[simp] theorem serialize_length (x : Eight Word) : (serialize x).length = 32 := rfl

theorem deserialize_serialize (x : Eight Word) : deserialize (serialize x) = x := by
  simp only [deserialize, serialize, wordsOf_flatMap_be32Bytes]
  rfl

theorem serialize_deserialize {d : List Byte} (h : d.length = 32) : serialize (deserialize d) = d := by
  have hl : (wordsOf d).length = 8 := by rw [wordsOf_length, h]
  have e : eightList (deserialize d) = wordsOf d := by
    simp only [deserialize]
    generalize wordsOf d = w at hl
    match w, hl with
    | [_, _, _, _, _, _, _, _], _ => rfl
  rw [serialize, e, flatMap_be32Bytes_wordsOf d (by omega)]

end Sys2Proof.Machine
end

