-- ==== Sys2Proof/Laws/Lengths.lean ====
section
/-! SUPPORT. How long the schedule, the padding, the blocks and the hex texts are. -/

namespace Sys2Proof.Machine

theorem expandSchedule_length (n : Nat) (w : List Word) :
    (expandSchedule n w).length = w.length + n := by
  induction n generalizing w with
  | zero => rfl
  | succ n ih =>
    rw [expandSchedule, ih, List.length_append, List.length_singleton]
    omega

/-- Expanding keeps the words there are. -/
theorem expandSchedule_getD (n : Nat) (w : List Word) (i : Nat) (h : i < w.length) :
    (expandSchedule n w).getD i 0 = w.getD i 0 := by
  induction n generalizing w with
  | zero => rfl
  | succ n ih =>
    rw [expandSchedule, ih _ (by rw [List.length_append]; omega)]
    simp only [List.getD_eq_getElem?_getD]
    rw [List.getElem?_append_left h]

theorem schedule_length {blk : List Byte} (h : blk.length = 64) : (schedule blk).length = 64 := by
  rw [schedule, expandSchedule_length, wordsOf_length, h]

@[simp] theorem roundConstants_length : roundConstants.length = 64 := rfl

theorem padZeros_spec (len : Nat) : padZeros len < 64 ∧ (len + 1 + padZeros len + 8) % 64 = 0 := by
  unfold padZeros
  omega

theorem pad_length (len : Nat) : (pad len).length = 9 + padZeros len := by
  simp only [pad, List.cons_append, List.length_cons, List.length_append, List.length_replicate,
    be64Bytes_length]
  omega

theorem padbufBytes_length (len : Nat) : (padbufBytes (pad len)).length = 72 := by
  have := (padZeros_spec len).1
  simp only [padbufBytes, List.length_append, List.length_replicate, pad_length]
  omega

theorem blocksOf_length (buf : List Byte) : (blocksOf buf).length = buf.length / 64 := by
  simp [blocksOf]

theorem blocksOf_block_length {buf blk : List Byte} (h : blk ∈ blocksOf buf) : blk.length = 64 := by
  simp only [blocksOf, List.mem_map, List.mem_range] at h
  obtain ⟨j, hj, rfl⟩ := h
  rw [List.length_take, List.length_drop]
  omega

/-- Cutting one block off the front. -/
theorem blocksOf_append {a b : List Byte} (h : a.length % 64 = 0) :
    blocksOf (a ++ b) = blocksOf a ++ blocksOf b := by
  obtain ⟨n, hn⟩ : ∃ n, a.length = 64 * n := ⟨a.length / 64, by omega⟩
  have e : (a.length + b.length) / 64 = n + b.length / 64 := by omega
  have e' : a.length / 64 = n := by omega
  simp only [blocksOf, List.length_append, e, e', List.range_add, List.map_append, List.map_map]
  congr 1
  · apply List.map_congr_left
    intro j hj
    rw [List.mem_range] at hj
    rw [List.drop_append_of_le_length (by omega), List.take_append_of_le_length]
    rw [List.length_drop]
    omega
  · apply List.map_congr_left
    intro j _
    have e2 : 64 * (n + j) = a.length + 64 * j := by omega
    simp only [Function.comp, e2, List.drop_length_add_append]

theorem hexEncode_length (d : List Byte) : (hexEncode d).length = 2 * d.length := by
  induction d with
  | nil => rfl
  | cons b d ih =>
    rw [hexEncode, List.flatMap_cons, List.length_append, ← hexEncode, ih]
    simp only [List.length_cons, List.length_nil]
    omega

end Sys2Proof.Machine
end

