-- ==== Sys2Proof/Laws/Padding.lean ====
section
/-! SUPPORT. The bytes of a word, of a 64-bit count and of the padding, one by one. -/

namespace Sys2Proof.Machine

theorem be32Bytes_getElem (x : Word) {k : Nat} (h : k < 4) :
    (be32Bytes x)[k]? = some (BitVec.ofNat 8 (x.toNat / 2 ^ (24 - 8 * k))) := by
  obtain rfl | rfl | rfl | rfl : k = 0 ∨ k = 1 ∨ k = 2 ∨ k = 3 := by omega
  all_goals simp [be32Bytes, extractByte]

/-- A byte of a 32-bit half of a 64-bit count. -/
theorem extractHalf_byte (v k j : Nat) (h : 8 * j + 8 ≤ 32) (h2 : k + 32 ≤ 64) :
    (BitVec.ofNat 8 (((BitVec.ofNat 64 v).extractLsb' k 32).toNat / 2 ^ (8 * j)) : Byte) =
      BitVec.ofNat 8 (v / 2 ^ (k + 8 * j)) := by
  apply BitVec.eq_of_getLsbD_eq
  intro i hi
  simp only [BitVec.getLsbD_ofNat, hi, decide_true, Bool.true_and, Nat.testBit_div_two_pow,
    BitVec.testBit_toNat, BitVec.getLsbD_extractLsb']
  have h3 : i + 8 * j < 32 := by omega
  have h4 : k + (i + 8*j) < 64 := by omega
  simp only [h3, h4, decide_true, Bool.true_and]
  congr 1
  omega

/-- Byte `k` of eight, the most significant first (R9). -/
theorem be64Bytes_getElem (v : Nat) {k : Nat} (h : k < 8) :
    (be64Bytes v)[k]? = some (BitVec.ofNat 8 (v / 2 ^ (8 * (7 - k)))) := by
  unfold be64Bytes
  simp only
  by_cases h4 : k < 4
  · rw [List.getElem?_append_left (by rw [be32Bytes_length]; exact h4), be32Bytes_getElem _ h4]
    have e : 24 - 8 * k = 8 * (3 - k) := by omega
    rw [e, extractHalf_byte _ _ _ (by omega) (by omega)]
    congr 4
    omega
  · rw [List.getElem?_append_right (by rw [be32Bytes_length]; omega), be32Bytes_length,
      be32Bytes_getElem _ (by omega)]
    have e : 24 - 8 * (k - 4) = 8 * (7 - k) := by omega
    rw [e, extractHalf_byte _ _ _ (by omega) (by omega), Nat.zero_add]

theorem be64Bytes_mod (v : Nat) : be64Bytes (v % 2 ^ 64) = be64Bytes v := by
  have : BitVec.ofNat 64 (v % 2 ^ 64) = BitVec.ofNat 64 v := by
    apply BitVec.eq_of_toNat_eq
    simp only [BitVec.toNat_ofNat, Nat.mod_mod]
  simp only [be64Bytes, this]

/-- The padding byte by byte (R180). -/
theorem pad_getElem (len : Nat) : (pad len)[0]? = some 0x80 ∧
    (∀ j, 1 ≤ j → j ≤ padZeros len → (pad len)[j]? = some 0) ∧
    ∀ k, k < 8 → (pad len)[1 + padZeros len + k]? =
      some (BitVec.ofNat 8 (8 * len / 2 ^ (8 * (7 - k)))) := by
  refine ⟨rfl, fun j h1 h2 => ?_, fun k hk => ?_⟩
  · obtain ⟨j, rfl⟩ := Nat.exists_eq_add_of_le' h1
    simp only [pad, List.cons_append, List.getElem?_cons_succ]
    rw [List.getElem?_append_left (by rw [List.length_replicate]; omega), List.getElem?_replicate,
      if_pos (by omega)]
  · have e : 1 + padZeros len + k = (padZeros len + k) + 1 := by omega
    simp only [pad, List.cons_append, e, List.getElem?_cons_succ]
    rw [List.getElem?_append_right (by rw [List.length_replicate]; omega), List.length_replicate,
      Nat.add_sub_cancel_left, be64Bytes_mod, be64Bytes_getElem _ hk]

end Sys2Proof.Machine
end

