-- ==== Sys2Proof/Laws/Step.lean ====
section
/-! SUPPORT. One step: of the core where it is the core's turn, of the world outside where it is not. -/

namespace Sys2Proof.Machine

theorem step_core {s : State} (h : s.coreTurn = true) : step s = executeLatched s := by
  simp [step, h]

theorem step_host {s : State} (h : s.coreTurn = false) : step s = hostTurn s := by
  simp [step, h]

/-- The execute step is enabled only while `BUSY = 1` (R260). -/
theorem busy_of_coreTurn {s : State} (h : s.coreTurn = true) : s.status.busy = true := by
  simp only [State.coreTurn, Bool.and_eq_true] at h
  exact h.1

theorem not_coreTurn_of_idle {s : State} (h : s.status.busy = false) : s.coreTurn = false := by
  simp [State.coreTurn, h]

/-- The next input, with its queue and the delay already moved on. -/
theorem hostTurn_cons {s : State} {op : HostOp} {rest : List HostOp} (h : s.inputs = op :: rest) :
    hostTurn s = takeInput op { s with inputs := rest, delay := s.delay - 1 } := by
  simp only [hostTurn, h]

theorem hostTurn_nil {s : State} (h : s.inputs = []) : hostTurn s = .next s := by
  simp only [hostTurn, h]

end Sys2Proof.Machine
end

