-- ==== Sys2Proof/Laws/Updates.lean ====
section
/-! SUPPORT. One lemma per field of the state for what PAD, HASH and FORGE write together, so that no proof
unfolds the padding or a compression. -/

namespace Sys2Proof.Machine

section
variable (s : State) (n : Nat)
@[simp] theorem State.setPadding_cmd : (s.setPadding n).cmd = s.cmd := by simp [State.setPadding]
@[simp] theorem State.setPadding_status : (s.setPadding n).status = s.status := by
  simp [State.setPadding]
@[simp] theorem State.setPadding_opa : (s.setPadding n).opa = s.opa := by simp [State.setPadding]
@[simp] theorem State.setPadding_opb : (s.setPadding n).opb = s.opb := by simp [State.setPadding]
@[simp] theorem State.setPadding_opc : (s.setPadding n).opc = s.opc := by simp [State.setPadding]
@[simp] theorem State.setPadding_result : (s.setPadding n).result = s.result := by
  simp [State.setPadding]
@[simp] theorem State.setPadding_lenLo : (s.setPadding n).lenLo = s.lenLo := by simp [State.setPadding]
@[simp] theorem State.setPadding_lenHi : (s.setPadding n).lenHi = s.lenHi := by simp [State.setPadding]
@[simp] theorem State.setPadding_origLo : (s.setPadding n).origLo = s.origLo := by
  simp [State.setPadding]
@[simp] theorem State.setPadding_origHi : (s.setPadding n).origHi = s.origHi := by
  simp [State.setPadding]
@[simp] theorem State.setPadding_padlen :
    (s.setPadding n).padlen =
      BitVec.ofNat 32 (pad n).length := by simp [State.setPadding]
@[simp] theorem State.setPadding_hexlen : (s.setPadding n).hexlen = s.hexlen := by
  simp [State.setPadding]
@[simp] theorem State.setPadding_st : (s.setPadding n).st = s.st := by simp [State.setPadding]
@[simp] theorem State.setPadding_w : (s.setPadding n).w = s.w := by simp [State.setPadding]
@[simp] theorem State.setPadding_mem :
    (s.setPadding n).mem =
      Memory.writeBytes s.mem (bufBase .padbuf) (padbufBytes (pad n)) := by simp [State.setPadding]
@[simp] theorem State.setPadding_hidden : (s.setPadding n).hidden = s.hidden := by
  simp [State.setPadding]
@[simp] theorem State.setPadding_inputs : (s.setPadding n).inputs = s.inputs := by
  simp [State.setPadding]
@[simp] theorem State.setPadding_replies : (s.setPadding n).replies = s.replies := by
  simp [State.setPadding]
@[simp] theorem State.setPadding_delay : (s.setPadding n).delay = s.delay := by simp [State.setPadding]
@[simp] theorem State.setPadding_commands : (s.setPadding n).commands = s.commands := by
  simp [State.setPadding]
end

section
variable (s : State) (r : Compressed) (l : List (List Byte))
@[simp] theorem State.setCompressed_cmd : (s.setCompressed r l).cmd = s.cmd := by
  simp [State.setCompressed]
@[simp] theorem State.setCompressed_status : (s.setCompressed r l).status = s.status := by
  simp [State.setCompressed]
@[simp] theorem State.setCompressed_opa : (s.setCompressed r l).opa = s.opa := by
  simp [State.setCompressed]
@[simp] theorem State.setCompressed_opb : (s.setCompressed r l).opb = s.opb := by
  simp [State.setCompressed]
@[simp] theorem State.setCompressed_opc : (s.setCompressed r l).opc = s.opc := by
  simp [State.setCompressed]
@[simp] theorem State.setCompressed_result : (s.setCompressed r l).result = s.result := by
  simp [State.setCompressed]
@[simp] theorem State.setCompressed_lenLo : (s.setCompressed r l).lenLo = s.lenLo := by
  simp [State.setCompressed]
@[simp] theorem State.setCompressed_lenHi : (s.setCompressed r l).lenHi = s.lenHi := by
  simp [State.setCompressed]
@[simp] theorem State.setCompressed_origLo : (s.setCompressed r l).origLo = s.origLo := by
  simp [State.setCompressed]
@[simp] theorem State.setCompressed_origHi : (s.setCompressed r l).origHi = s.origHi := by
  simp [State.setCompressed]
@[simp] theorem State.setCompressed_padlen : (s.setCompressed r l).padlen = s.padlen := by
  simp [State.setCompressed]
@[simp] theorem State.setCompressed_hexlen : (s.setCompressed r l).hexlen = s.hexlen := by
  simp [State.setCompressed]
@[simp] theorem State.setCompressed_st : (s.setCompressed r l).st = eightMap some r.state := by
  simp [State.setCompressed]
@[simp] theorem State.setCompressed_w : (s.setCompressed r l).w = cells 64 r.schedule := by
  simp [State.setCompressed]
@[simp] theorem State.setCompressed_mem :
    (s.setCompressed r l).mem =
      Memory.writeBytes s.mem (bufBase .digest) (serialize r.state) := by simp [State.setCompressed]
@[simp] theorem State.setCompressed_hidden :
    (s.setCompressed r l).hidden =
      ⟨eightMap some r.snap, some 63, some (l.length - 1), cells 64 (l.getLastD [])⟩ := by simp [State.setCompressed]
@[simp] theorem State.setCompressed_inputs : (s.setCompressed r l).inputs = s.inputs := by
  simp [State.setCompressed]
@[simp] theorem State.setCompressed_replies : (s.setCompressed r l).replies = s.replies := by
  simp [State.setCompressed]
@[simp] theorem State.setCompressed_delay : (s.setCompressed r l).delay = s.delay := by
  simp [State.setCompressed]
@[simp] theorem State.setCompressed_commands : (s.setCompressed r l).commands = s.commands := by
  simp [State.setCompressed]
end

end Sys2Proof.Machine
end

