-- ==== Sys2Proof/Tests/Slice0.lean ====
section
/-! SUPPORT. The model's own tests, each expected value from the worked examples and vectors of the spec
(the rule or section of spec/95_test_vectors.md is named), and a witness for every statement that has
hypotheses. -/

namespace Sys2Proof.Tests

open Sys2Proof.Machine

/-! ## Helpers -/

/-- The `n` bytes of a number written in hexadecimal, the first the most significant. -/
def bytes (n v : Nat) : List Byte := (List.range n).map fun i => BitVec.ofNat 8 (v / 2 ^ (8 * (n - 1 - i)))

/-- The ASCII codes of a text. -/
def ascii (x : String) : List Byte := x.toList.map fun c => BitVec.ofNat 8 c.toNat

/-- Eight words written as one number. -/
def eight (v : Nat) : Eight Word := deserialize (bytes 32 v)

/-- The padded block of "abc". -/
def abcBlock : List Byte := ascii "abc" ++ [0x80] ++ List.replicate 59 0 ++ [0x18]

/-- The digest of "hello world" (spec/95_test_vectors.md H3). -/
def helloDigest : List Byte := bytes 32 0xb94d27b9934d3e08a52e52d7da7dabfac484efe37a5380ee9088f7ace2efcde9

/-- The ASCII codes of its 64 hex characters, as the words `h[0]` to `h[15]` of program P4. -/
def helloText : List Byte :=
  bytes 32 0x6239346432376239393334643365303861353265353264376461376461626661 ++
  bytes 32 0x6334383465666533376135333830656539303838663761636532656663646539

/-- A byte string laid out from an address, as cells. -/
def cellsAt (a : Nat) (l : List Byte) : Memory := l.zipIdx.map fun x => (a + x.2, x.1)

/-- A state in which every operand cell a command could read holds a value. -/
def full : State :=
  { State.reset with
    opa := some 0x12345678
    opb := some 0x9ABCDEF0
    opc := some 0x55555555
    st := eightMap some initVector
    lenLo := 11
    origLo := 11
    hexlen := 64
    mem := cellsAt 0x0120 helloDigest ++ cellsAt 0x0140 abcBlock ++ cellsAt 0x0180 helloText
      ++ cellsAt 0x10000 (ascii "!admin=true") }

/-- `full` with a command latched, and the core's turn. -/
def latched (v : Word) : State := { full with cmd := v, status := statusLatched }

/-- `full` with a command that still waits, and the host's next accesses. -/
def waiting (ops : List HostOp) : State := { full with status := statusLatched, delay := 1, inputs := ops }

/-- `full`, idle, with the host's next accesses. -/
def idle (ops : List HostOp) : State := { full with inputs := ops }

/-- Reset, with the host's next accesses. -/
def fresh (ops : List HostOp) : State := { State.reset with inputs := ops }

/-- One question about the next state of an outcome. -/
def after (r : Result) (p : State → Bool) : Bool :=
  match r with
  | .next t => p t
  | .fault _ => false
  | .refused _ => false

/-- Whether an outcome is the fault `f`. -/
def faults (r : Result) (f : Fault) : Bool :=
  match r with
  | .next _ => false
  | .fault g => g == f
  | .refused _ => false

/-- A host read of one word, from the state `s`. -/
def reads (s : State) (off : Nat) (v : Word) : Bool := memRead s (BitVec.ofNat 32 off) 4 == .ok v

/-! ## Well-formedness and decoding -/

theorem test_wf_refuses_rotate_by_zero : (Instr.rotr 0).wf = false := by decide
theorem test_wf_accepts_rotate_ends : (Instr.rotr 1).wf = true ∧ (Instr.rotr 31).wf = true := by decide

-- One word of every row of R91, written out field by field as RSV (19), N (5), OP (8).
theorem test_decode_nop : decode 0b0000000000000000000_00000_00000000 = .ok .nop := by decide
theorem test_decode_add : decode 0b0000000000000000000_00000_00000001 = .ok .add := by decide
theorem test_decode_rotr : decode 0b0000000000000000000_00111_00000010 = .ok (.rotr 7) := by decide
theorem test_decode_ssig0 : decode 0b0000000000000000000_00000_00000011 = .ok .ssig0 := by decide
theorem test_decode_ssig1 : decode 0b0000000000000000000_00000_00000100 = .ok .ssig1 := by decide
theorem test_decode_bsig0 : decode 0b0000000000000000000_00000_00000101 = .ok .bsig0 := by decide
theorem test_decode_bsig1 : decode 0b0000000000000000000_00000_00000110 = .ok .bsig1 := by decide
theorem test_decode_ch : decode 0b0000000000000000000_00000_00000111 = .ok .ch := by decide
theorem test_decode_maj : decode 0b0000000000000000000_00000_00001000 = .ok .maj := by decide
theorem test_decode_sched : decode 0b0000000000000000000_00000_00010000 = .ok .sched := by decide
theorem test_decode_round : decode 0b0000000000000000000_00000_00010001 = .ok .round := by decide
theorem test_decode_compress : decode 0b0000000000000000000_00000_00010010 = .ok .compress := by decide
theorem test_decode_pad : decode 0b0000000000000000000_00000_00011000 = .ok .pad := by decide
theorem test_decode_init : decode 0b0000000000000000000_00000_00100000 = .ok .init := by decide
theorem test_decode_serial : decode 0b0000000000000000000_00000_00100001 = .ok .serial := by decide
theorem test_decode_hash : decode 0b0000000000000000000_00000_00100010 = .ok .hash := by decide
theorem test_decode_deser : decode 0b0000000000000000000_00000_00110000 = .ok .deser := by decide
theorem test_decode_recoverhex : decode 0b0000000000000000000_00000_00110001 = .ok .recoverhex := by decide
theorem test_decode_hexenc : decode 0b0000000000000000000_00000_00110010 = .ok .hexenc := by decide
theorem test_decode_forge : decode 0b0000000000000000000_00000_00110011 = .ok .forge := by decide

/-- The rejected words of spec/95_test_vectors.md 2.11 and the ends of R95's ranges. -/
theorem test_decode_rejects_unassigned :
    ([0x09, 0x0F, 0x13, 0x17, 0x19, 0x1F, 0x23, 0x2F, 0x34, 0xFF, 0xFFFFFFFF] : List Word).all
      (fun w => decode w == .error .illegalOpcode) = true := by decide
theorem test_decode_rejects_reserved :
    ([0x100, 0x2000, 0x101, 0x2002, 0x80000022] : List Word).all
      (fun w => decode w == .error .reservedField) = true := by decide

theorem test_probe_decoder_rotr : decodeTableWord 32 0x00000702 = some (.rotr 7) := by decide
theorem test_assemble_hash : assemble "HASH" none = some 0x00000022 := by decide

/-- Each command's mnemonic is written in capitals as R91 lists it: ROTR is the one that takes an
operand. -/
theorem test_assemble_refuses_rotate_32 : assemble "ROTR" (some 32) = none := by decide

/-! ## The constants -/

/-- R35's derivation: `q·2^32 + IV[i]` is the whole part of the square root of `p·2^64`, for the first
eight primes `p`. -/
theorem test_init_vector_is_square_roots :
    ([(2, 1), (3, 1), (5, 2), (7, 2), (11, 3), (13, 3), (17, 4), (19, 4)].zipIdx).all (fun x =>
      let c := x.1.2 * 2 ^ 32 + (eightAt initVector x.2).toNat
      decide (c ^ 2 ≤ x.1.1 * 2 ^ 64) && decide (x.1.1 * 2 ^ 64 < (c + 1) ^ 2)) = true := by
  decide +kernel

/-! ## The commands, one step each, on the spec's vectors -/

theorem test_nop_clears_error :
    after (step { fresh [] with cmd := 0, status := statusLatched })
      (fun t => statusWord t.status == 0x00000002) = true := by decide
theorem test_add_wraps :
    after (exec .add { full with opa := some 0xFFFFFFFF, opb := some 0xFFFFFFFF })
      (fun t => t.result == some 0xFFFFFFFE) = true := by decide
theorem test_add_example : after (exec .add full) (fun t => t.result == some 0xACF13568) = true := by decide
theorem test_rotr_4 : after (exec (.rotr 4) full) (fun t => t.result == some 0x81234567) = true := by decide
theorem test_rotr_31 : after (exec (.rotr 31) full) (fun t => t.result == some 0x2468ACF0) = true := by decide
theorem test_ssig0 : after (exec .ssig0 full) (fun t => t.result == some 0xE7FCE6EE) = true := by decide
theorem test_ssig1 : after (exec .ssig1 full) (fun t => t.result == some 0xA1F78649) = true := by decide
theorem test_bsig0 : after (exec .bsig0 full) (fun t => t.result == some 0x66146474) = true := by decide
theorem test_bsig1 : after (exec .bsig1 full) (fun t => t.result == some 0x3561ABDA) = true := by decide
theorem test_ch :
    after (exec .ch { full with opa := some 0xF0F0F0F0, opb := some 0xFF00FF00, opc := some 0x0FF00FF0 })
      (fun t => t.result == some 0xFF00FF00) = true := by decide
theorem test_ch_iv :
    after (exec .ch { full with opa := some 0x510E527F, opb := some 0x9B05688C, opc := some 0x1F83D9AB })
      (fun t => t.result == some 0x1F85C98C) = true := by decide
theorem test_maj :
    after (exec .maj { full with opa := some 0xF0F0F0F0, opb := some 0xFF00FF00, opc := some 0x0FF00FF0 })
      (fun t => t.result == some 0xFFF0FFF0) = true := by decide
theorem test_sched_abc :
    after (exec .sched full) (fun t => reads t 0x0240 0x61626380 && reads t 0x0248 0x7DA86405
      && reads t 0x02FC 0x12B1EDEB) = true := by decide +kernel
theorem test_round_abc :
    after (exec .round { full with opa := some 0x428A2F98, opb := some 0x61626380 }) (fun t =>
      t.st == eightMap some
        (eight 0x5d6aebcd6a09e667bb67ae853c6ef372fa2a4622510e527f9b05688c1f83d9ab)) = true := by decide +kernel
/-- The five-term sum wraps twice (R161). -/
theorem test_round_all_ones :
    after (exec .round { full with
        opa := some 1, opb := some 0, st := eightMap some (eight (2 ^ 256 - 1)) }) (fun t =>
      t.st.a == some 0xFFFFFFFC && t.st.e == some 0xFFFFFFFD) = true := by decide +kernel
theorem test_compress_abc :
    after (exec .compress full) (fun t =>
      t.st == eightMap some
        (eight 0xba7816bf8f01cfea414140de5dae2223b00361a396177a9cb410ff61f20015ad)) = true := by decide +kernel
/-- The post-round-63 state before the feed-forward (R171). -/
theorem test_rounds_abc :
    sixtyFourRounds initVector (schedule abcBlock) =
      eight 0x506e3058d39a216504d24d6cb85e2ce95ef50f24fb121210948d25b6961f4894 := by decide +kernel
theorem test_pad_3 :
    after (exec .pad { fresh [] with lenLo := 3 }) (fun t => t.padlen == 61
      && reads t 0x0300 0x80000000 && reads t 0x033C 0x18000000 && reads t 0x0344 0) = true := by decide +kernel
theorem test_pad_wrapped :
    after (exec .pad { fresh [] with lenLo := 5, lenHi := 0x20000000 }) (fun t => t.padlen == 59
      && reads t 0x0334 0x00000000 && reads t 0x0338 0x00002800) = true := by decide +kernel
theorem test_init :
    after (exec .init State.reset) (fun t => reads t 0x0100 0x6A09E667 && reads t 0x011C 0x5BE0CD19)
      = true := by decide
theorem test_serial :
    after (exec .serial full) (fun t => reads t 0x0120 0x6A09E667 && reads t 0x013C 0x5BE0CD19) = true := by
  decide +kernel
/-- H1 from reset, with no buffer cell written. -/
theorem test_hash_empty :
    after (exec .hash State.reset) (fun t => t.padlen == 64 && reads t 0x0120 0xE3B0C442
      && reads t 0x013C 0x7852B855 && reads t 0x02FC 0x3B5EC49B) = true := by decide +kernel
/-- H5's two blocks, as the rules' function. -/
theorem test_hash_two_blocks :
    hashDigest (List.replicate 56 0x61) =
      bytes 32 0xb35439a4ac6f0948b6d6f9e3c6af0f5f590ce20f1bde7090ef7970686ec6738a := by decide +kernel
theorem test_deser :
    after (exec .deser full) (fun t => t.st == eightMap some
      (eight 0xb94d27b9934d3e08a52e52d7da7dabfac484efe37a5380ee9088f7ace2efcde9)) = true := by decide +kernel
theorem test_recoverhex :
    after (exec .recoverhex full) (fun t => t.st.a == some 0xB94D27B9 && t.st.h == some 0xE2EFCDE9)
      = true := by decide +kernel
theorem test_recoverhex_non_hex :
    after (exec .recoverhex { full with mem := Memory.write full.mem 0x018A 0x67 }) (fun t =>
      t.st == full.st && statusWord t.status == 0x00000506) = true := by decide +kernel
theorem test_hexenc :
    after (exec .hexenc { full with mem := cellsAt 0x0120 (serialize initVector) }) (fun t =>
      reads t 0x01C0 0x36613039) = true := by decide +kernel
theorem test_forge_hello :
    after (exec .forge full) (fun t => t.padlen == 53 && reads t 0x0120 0x55F5E701
      && reads t 0x01C0 0x35356635 && reads t 0x01FC 0x65613837 && reads t 0x02FC 0x02E4C49C) = true := by
  decide +kernel
/-- The wide length of spec/95_test_vectors.md 2.10: `E = 2^64 + 65`. -/
theorem test_forge_wide_length :
    forge helloText (2 ^ 64 - 1) (ascii "z") =
      some (ascii "a76714a9b22f13953606bbe700ba876a4ad0a6aeb44eb6289be2102d8e39eee6") := by decide +kernel

/-! ## Errors, faults and the bus -/

/-- spec/95_test_vectors.md 2.11: the decoder's errors, the first of several, with `OPA` at `⊥`. -/
theorem test_error_status :
    ([(0x00000100, 0x206), (0x00002000, 0x206), (0x00000101, 0x206), (0x00000002, 0x306),
      (0x00002002, 0x206), (0x00000009, 0x106), (0xFFFFFFFF, 0x106), (0x00000031, 0x506)] :
        List (Word × Word)).all (fun x =>
      after (step { fresh [] with cmd := x.1, status := statusLatched })
        (fun t => statusWord t.status == x.2)) = true := by decide
/-- LENGTH_RANGE comes before the wrong `HEXLEN` (R264). -/
theorem test_forge_length_range :
    after (exec .forge { full with lenHi := 1, hexlen := 63 })
      (fun t => statusWord t.status == 0x00000406) = true := by
  have h : Config.msgbufBytes < State.len { full with lenHi := 1, hexlen := 63 } := by
    have := msgbufBytes_bounds.2
    show _ < 1 * 2 ^ 32 + 11
    omega
  simp only [exec, execForge, h, if_true]
  decide
theorem test_unwritten_operand_faults :
    faults (exec .add State.reset) .unwritten = true
      ∧ faults (exec .compress { full with st := State.reset.st }) .unwritten = true := by decide +kernel
theorem test_hexin_one_cell_unwritten :
    faults (exec .recoverhex { full with mem := cellsAt 0x0180 (helloText.take 63) })
      .unwritten = true := by decide +kernel

/-- spec/95_test_vectors.md 2.12, reads from reset. -/
theorem test_reads_from_reset :
    ([(0x0030, 0x53323536), (0x0400, 0x428A2F98), (0x04FC, 0xC67178F2), (0x0500, 0x6A09E667), (0x0004, 0),
      (0x0000, 0)] : List (Nat × Word)).all (fun x => reads State.reset x.1 x.2) = true := by decide
theorem test_bus_faults :
    ([.read 0x0002 4, .read 0x0038 4, .read 0x0600 4, .read 0x0030 2, .write 0x0004 4 0, .write 0x0100 4 0] :
      List HostOp).all (fun op => faults (step (fresh [op])) .bus) = true := by decide
theorem test_unwritten_reads :
    ([.read 0x0100 4, .read 0x0014 4, .read 0x10000 4] : List HostOp).all
      (fun op => faults (step (fresh [op])) .unwritten) = true := by decide
theorem test_hazards :
    ([.read 0x0014 4, .read 0x0000 4, .write 0x0000 4 0] : List HostOp).all
      (fun op => faults (step (waiting [op])) .hazard) = true := by decide
theorem test_busy_status_read :
    after (step (waiting [.read 0x0004 4])) (fun t => t.replies == [0x00000001]) = true := by decide
theorem test_buffer_write_packs :
    after (step (idle [.write 0x0140 4 0x61626380])) (fun t =>
      Memory.read t.mem 0x0140 == some 0x61 && Memory.read t.mem 0x0143 == some 0x80
        && reads t 0x0140 0x61626380) = true := by decide +kernel
theorem test_reset_drops_latched_command :
    after (step (waiting [.reset])) (fun t => !t.status.busy && t.opa == none && t.mem == []) = true := by decide

/-! ## Witnesses: states and operands that meet the hypotheses of the statements together -/

theorem witness_LatchedWordIsCheckedInDecodeOrder :
    ([0x00000009, 0xFFFFFFFF, 0x00002000, 0x00000100, 0x00000002, 0x00000102, 0x00001F02, 0x00000022] :
      List Word).all (fun w => (latched w).coreTurn) = true := by decide
theorem witness_StepRunsTheDecodedCommand :
    (latched 0x22).coreTurn = true ∧ decode (latched 0x22).cmd = .ok .hash := by decide
theorem witness_CommandWriteLatchesAndClearsTheError :
    (idle [.write 0x0000 4 0x22]).status.busy = false := by decide
theorem witness_StatusStaysUntilTheNextCommandWrite :
    (waiting [.poll]).coreTurn = false ∧ HostOp.poll ≠ .reset ∧ (∀ v, HostOp.poll ≠ .write 0x0000 4 v) ∧
      after (step (waiting [.poll])) (fun _ => true) = true ∧
      (idle [.write 0x0000 4 0]).coreTurn = false ∧
      after (step (idle [.write 0x0000 4 0])) (fun _ => true) = true :=
  ⟨by decide, by decide, fun _ h => HostOp.noConfusion h, by decide, by decide, by decide⟩
theorem witness_CompletionSetsDoneAndClearsBusy :
    (latched 0).coreTurn = true ∧ after (step (latched 0)) (fun _ => true) = true ∧
      after (step (latched 2)) (fun t => t.status.err) = true := by decide
theorem witness_ErrorChangesNothingButStatus :
    (latched 9).coreTurn = true ∧ after (step (latched 9)) (fun t => t.status.err) = true := by decide
theorem witness_PollReachesTheExecuteStep :
    (waiting [.poll]).status.busy = true ∧ (waiting [.poll]).inputs = .poll :: [] := by decide
theorem witness_operand_registers :
    full.opa = some 0x12345678 ∧ full.opb = some 0x9ABCDEF0 ∧ full.opc = some 0x55555555 ∧
      (31 : BitVec 5) ≠ 0 := by decide
theorem witness_SchedWritesTheRecurrence :
    (∀ j, j < 64 → Memory.read full.mem (0x0140 + j) = some (abcBlock.getD j 0)) ∧
      Memory.read State.reset.mem (0x0140 + 63) = none := by decide +kernel
theorem witness_RoundTransformsTheState :
    full.st = ⟨some 0x6a09e667, some 0xbb67ae85, some 0x3c6ef372, some 0xa54ff53a, some 0x510e527f,
      some 0x9b05688c, some 0x1f83d9ab, some 0x5be0cd19⟩ ∧
      eightAt State.reset.st 7 = none ∧ State.reset.opa = none ∧ State.reset.opb = none := by decide
theorem witness_CompressRunsSixtyFourRoundsAndFeedsForward :
    full.st = eightMap some initVector ∧ Memory.readBytes full.mem 0x0140 64 = some abcBlock ∧
      eightAt State.reset.st 0 = none ∧ Memory.read State.reset.mem (0x0140 + 63) = none := by
  decide +kernel
theorem witness_SerialWritesTheDigestBigEndian :
    full.st = eightMap some initVector ∧ eightAt State.reset.st 7 = none := by decide
/-- The two clauses on the message: in `full` it is held, at reset with `LEN = 1` it is not; and a `LEN` of
2^32 is past every buffer. -/
theorem witness_HashCommandHashesTheMessageBuffer :
    Config.msgbufBytes < State.len { full with lenHi := 1 } ∧
      (State.len { fresh [] with lenLo := 1 } ≤ Config.msgbufBytes ∧
        0 < State.len { fresh [] with lenLo := 1 } ∧ Memory.read State.reset.mem (0x10000 + 0) = none) ∧
      (full.len = (ascii "!admin=true").length ∧ full.len ≤ Config.msgbufBytes ∧
        Memory.readBytes full.mem 0x10000 (ascii "!admin=true").length = some (ascii "!admin=true")) := by
  have h := msgbufBytes_bounds
  refine ⟨?_, ⟨?_, by decide, by decide⟩, by decide +kernel, ?_, by decide +kernel⟩
  · show _ < 1 * 2 ^ 32 + 11
    omega
  · show 1 ≤ _
    omega
  · show 11 ≤ _
    omega
/-- Two states that agree on the message and on nothing else of the data. -/
theorem witness_HashDependsOnlyOnItsMessage :
    let s' := { fresh [] with lenLo := 11, mem := cellsAt 0x10000 (ascii "!admin=true") }
    full.lenLo = s'.lenLo ∧ full.lenHi = s'.lenHi ∧
      (∀ j, j < 11 → Memory.read full.mem (0x10000 + j) = Memory.read s'.mem (0x10000 + j)) ∧
      after (exec .hash full) (fun t => !t.status.err) = true := by decide +kernel
theorem witness_DeserRebuildsTheStateFromTheDigest :
    (∀ j, j < 32 → Memory.read full.mem (0x0120 + j) = some (helloDigest.getD j 0)) ∧
      Memory.read State.reset.mem (0x0120 + 31) = none := by decide +kernel
theorem witness_HexDecodeTakesSixtyFourHexCharacters :
    (ascii "0").length ≠ 64 ∧ (∃ c ∈ ascii "g", nib c = none) ∧ helloText.length = 64 ∧
      (∀ i, i < 64 → nib (helloText.getD i 0) = some ((nib (helloText.getD i 0)).getD 0)) := by
  decide +kernel
theorem witness_HexCodecRoundTrips :
    helloDigest.length = 32 ∧ hexDecode helloText = some helloDigest ∧
      (∀ c ∈ helloText, ¬ (0x41 ≤ c.toNat ∧ c.toNat ≤ 0x46)) := by decide +kernel
theorem witness_RecoverhexRebuildsTheStateFromHex :
    State.reset.hexlen ≠ 64 ∧ full.hexlen = 64 ∧
      Memory.read (cellsAt 0x0180 (helloText.take 63)) (0x0180 + 63) = none ∧
      (∀ i, i < 64 → Memory.read full.mem (0x0180 + i) = some (helloText.getD i 0)) ∧
      (∀ i, i < 64 → nib (helloText.getD i 0) = some ((nib (helloText.getD i 0)).getD 0)) ∧
      (∀ i, i < 64 → Memory.read (cellsAt 0x0180 (List.replicate 64 0x67)) (0x0180 + i)
        = some 0x67) ∧ nib 0x67 = none := by decide +kernel
theorem witness_ForgeContinuesFromTheDigest :
    Config.msgbufBytes < State.len { full with lenHi := 1 } ∧
      (full.len ≤ Config.msgbufBytes ∧ State.reset.hexlen ≠ 64) ∧
      (full.hexlen = 64 ∧ Memory.read State.reset.mem (0x0180 + 63) = none ∧
        Memory.read (cellsAt 0x0180 helloText) (0x10000 + 10) = none) ∧
      (hexDecode (List.replicate 64 0x67) = none ∧ Memory.readBytes (cellsAt 0x0180
        (List.replicate 64 0x67)) 0x0180 64 = some (List.replicate 64 0x67)) ∧
      (full.len = (ascii "!admin=true").length ∧ Memory.readBytes full.mem 0x0180 64 = some helloText ∧
        Memory.readBytes full.mem 0x10000 11 = some (ascii "!admin=true") ∧
        hexDecode helloText = some helloDigest) := by
  have h := msgbufBytes_bounds
  refine ⟨?_, ⟨?_, by decide⟩, by decide +kernel, by decide +kernel, by decide +kernel⟩
  · show _ < 1 * 2 ^ 32 + 11
    omega
  · show 11 ≤ _
    omega
theorem witness_ForgeCommandForgesTheExtendedDigest :
    full.hexlen = 64 ∧
      Memory.readBytes full.mem 0x0180 64 = some (hexEncode (hashDigest (ascii "hello world"))) ∧
      full.origLen = (ascii "hello world").length ∧ full.len = (ascii "!admin=true").length ∧
      full.len ≤ Config.msgbufBytes ∧
      Memory.readBytes full.mem 0x10000 11 = some (ascii "!admin=true") := by
  have h := msgbufBytes_bounds
  refine ⟨by decide, by decide +kernel, by decide +kernel, by decide +kernel, ?_, by decide +kernel⟩
  show 11 ≤ _
  omega
theorem witness_RecoverSerialHexencReproducesTheText :
    full.hexlen = 64 ∧ Memory.readBytes full.mem 0x0180 64 = some helloText ∧
      hexDecode helloText = some helloDigest ∧
      (∀ c ∈ helloText, ¬ (0x41 ≤ c.toNat ∧ c.toNat ≤ 0x46)) := by decide +kernel
theorem witness_SerialAndDeserUndoEachOther :
    after (exec .serial full) (fun _ => true) = true ∧ after (exec .deser full) (fun _ => true) = true := by
  decide +kernel
/-- `ORIGLEN` 11 and 55 pad to one block each (R230); FORGE completes in `full`, and faults where `HEXIN`
holds no value. -/
theorem witness_ForgeSeesOnlyThePaddedOriginalLength :
    (full.origHi.toNat * 2 ^ 32 + full.origLo.toNat + 8) / 64 =
        ((0 : Word).toNat * 2 ^ 32 + (55 : Word).toNat + 8) / 64 ∧
      after (exec .forge full) (fun t => !t.status.err) = true ∧
      faults (exec .forge { full with mem := [] }) .unwritten = true ∧ (0 + 8) / 64 = (55 + 8) / 64 := by
  decide +kernel
/-- A word for each step of the check order, in the order of R264; the last two meet steps 7 and 9. -/
theorem witness_ChecksAreMadeInOrder :
    ([0x00000009, 0x00002000, 0x00000100, 0x00000002, 0x00000022, 0x00000031, 0x00000001, 0x00000000] :
      List Word).all (fun w => (latched w).coreTurn) = true := by decide
theorem witness_commands_complete :
    [Instr.nop, .add, .rotr 1, .ssig0, .ssig1, .bsig0, .bsig1, .ch, .maj, .sched, .round, .compress, .pad,
      .init, .serial, .hash, .deser, .recoverhex, .hexenc, .forge].all
      (fun i => operandsHeld i full && !turnedAway i full && after (exec i full) (fun _ => true)) = true := by
  decide +kernel
theorem witness_HiddenStateIsNeverSeen :
    after (step (latched 0x12)) (fun _ => true) = true ∧ faults (step (fresh [.read 2 4])) .bus = true := by
  decide +kernel
theorem witness_MisalignedOrNarrowAccessIsABusFault :
    (idle [.read 0x0002 4]).coreTurn = false ∧ ((0x0002 : Word).toNat % 4 ≠ 0) ∧ 2 ≠ 4 := by decide
theorem witness_BusyCoreAnswersOnlyStatusReads :
    (waiting [.read 0x0000 4]).coreTurn = false ∧ (waiting [.read 0x0000 4]).status.busy = true ∧
      (0x0000 : Word).toNat % 4 = 0 ∧ (0x0000 : Word) ≠ 0x0004 := by decide
/-- The ends of each reserved and each read-only range below `MSGBUF`. -/
theorem witness_ReservedAndReadOnlyAccessesAreBusFaults :
    (idle [.read 0x0038 4]).status.busy = false ∧
      [0x0038, 0x00FC, 0x0348, 0x03FC, 0x0520, 0xFFFC].all (fun a =>
        faults (step (idle [.read (BitVec.ofNat 32 a) 4])) .bus) = true ∧
      [0x0004, 0x0014, 0x0028, 0x0030, 0x0034, 0x0100, 0x011C, 0x01C0, 0x0344, 0x0400, 0x051C].all (fun a =>
        faults (step (idle [.write (BitVec.ofNat 32 a) 4 0])) .bus) = true := by decide
theorem witness_HostAccessesGoThroughTheBus :
    (idle [.read 0x0030 4]).coreTurn = false ∧ memRead (idle [.read 0x0030 4]) 0x0030 4 = .ok 0x53323536 ∧
      memRead (idle [.read 0x0032 4]) 0x0032 4 = .error .bus := by decide
theorem witness_RegisterAccessesReachTheRegister : full.status.busy = false := by decide
theorem witness_BufferWordsArePackedBigEndian :
    full.status.busy = false ∧ (0x01BC : Word).toNat % 4 = 0 ∧
      (0x0120 ≤ (0x01BC : Word).toNat ∧ (0x01BC : Word).toNat < 0x01C0) ∧
      (0x10000 ≤ (0x1003C : Word).toNat ∧ (0x1003C : Word).toNat < 0x10000 + Config.msgbufBytes) := by
  have h := msgbufBytes_bounds
  refine ⟨by decide, by decide, by decide, by decide, ?_⟩
  show 0x1003C < _
  omega
theorem witness_BufferReadsNeedAllFourCells :
    full.status.busy = false ∧ (0x0344 : Word).toNat % 4 = 0 ∧
      Memory.read full.mem ((0x0344 : Word).toNat + 3) = none ∧
      (∀ k, k < 4 → Memory.read full.mem ((0x0140 : Word).toNat + k) = some (abcBlock.getD k 0)) := by
  decide +kernel
theorem witness_HostNeverWritesTheCoresResults :
    (idle [.write 0x0008 4 1]).coreTurn = false ∧
      (∀ rest, (idle [.write 0x0008 4 1]).inputs ≠ .reset :: rest) ∧
      after (step (idle [.write 0x0008 4 1])) (fun _ => true) = true :=
  ⟨by decide, fun _ h => HostOp.noConfusion (List.cons.inj h).1, by decide⟩
theorem witness_PlatformResetDropsTheLatchedCommand :
    (waiting [.reset]).coreTurn = false ∧ (waiting [.reset]).inputs = .reset :: [] := by decide
theorem witness_CanonicalMemoriesThatReadAlikeAreEqual :
    Memory.wf (Memory.write (Memory.write [] 0x141 2) 0x140 1) ∧ Memory.wf [(0x140, 1), (0x141, 2)] := by
  decide

/-- A state that a run reaches with data in it, and that meets the invariant. -/
theorem witness_EveryStepKeepsTheStateLawful :
    full.Lawful ∧ after (step (idle [.write 0x0000 4 0])) (fun _ => true) = true := by
  refine ⟨⟨by decide +kernel, ?_, by decide, .inl (by decide), by decide, .inr (by decide +kernel)⟩, by decide⟩
  have h := msgbufBytes_bounds
  have key : ∀ c ∈ full.mem, (0x120 ≤ c.1 ∧ c.1 < 0x1C0) ∨ (0x10000 ≤ c.1 ∧ c.1 < 0x10000 + 64) := by
    decide +kernel
  intro c hc
  have inside : ∀ b : Buf, bufBase b ≤ c.1 → c.1 - bufBase b < bufSize b → inBuffer c.1 = true := by
    intro b h1 h2
    refine List.any_eq_true.mpr ⟨b, by cases b <;> decide, ?_⟩
    rw [decide_eq_true h1, decide_eq_true h2]
    rfl
  rcases key c hc with hr | hr
  · rcases Nat.lt_or_ge c.1 0x140 with h1 | h1
    · exact inside .digest hr.1 (by show _ - 0x120 < 32; omega)
    · rcases Nat.lt_or_ge c.1 0x180 with h2 | h2
      · exact inside .block h1 (by show _ - 0x140 < 64; omega)
      · exact inside .hexin h2 (by show _ - 0x180 < 64; omega)
  · exact inside .msgbuf hr.1 (by show _ - 0x10000 < Config.msgbufBytes; omega)

end Sys2Proof.Tests
end

section
/-! The host bus at an idle core: what the address map gives on each of its stretches, which regions turn
a write away, and what one host access then answers (spec/20_memory.md R61, R62, R66, R67, R69). -/

namespace Sys2Proof.Machine

/-! ### The address map, stretch by stretch -/

theorem region_eq_scalarRegion {off : Nat} (h : off < 0x0100) : region off = scalarRegion off :=
  if_pos h

theorem region_eq_stateRegion {off : Nat} (hl : 0x0100 ≤ off) (hu : off < 0x0200) :
    region off = stateRegion off := by
  unfold region
  rw [if_neg (by omega), if_pos hu]

theorem region_eq_tableRegion {off : Nat} (hl : 0x0200 ≤ off) (hu : off < 0x10000) :
    region off = tableRegion off := by
  unfold region
  rw [if_neg (by omega), if_neg (by omega), if_pos hu]

theorem region_above_msgbuf {off : Nat} (h : 0x10000 + Config.msgbufBytes ≤ off) :
    region off = .reserved := by
  unfold region
  rw [if_neg (by omega), if_neg (by omega), if_neg (by omega), if_neg (by omega)]

theorem scalarRegion_above_msgcap {off : Nat} (h : 0x0038 ≤ off) : scalarRegion off = .reserved := by
  unfold scalarRegion
  split
  case h_15 => rfl
  all_goals omega

theorem stateRegion_hash {off : Nat} (h : off < 0x0120) : stateRegion off = .st ((off - 0x0100) / 4) :=
  if_pos h

theorem stateRegion_hexout {off : Nat} (h : 0x01C0 ≤ off) :
    stateRegion off = .buffer .hexout ((off - 0x01C0) / 4) := by
  unfold stateRegion
  rw [if_neg (by omega), if_neg (by omega), if_neg (by omega), if_neg (by omega)]

theorem tableRegion_above_padbuf {off : Nat} (hl : 0x0348 ≤ off) (hu : off < 0x0400) :
    tableRegion off = .reserved := by
  unfold tableRegion
  rw [if_neg (by omega), if_neg (by omega), if_pos hu]

theorem tableRegion_above_iv {off : Nat} (h : 0x0520 ≤ off) : tableRegion off = .reserved := by
  unfold tableRegion
  rw [if_neg (by omega), if_neg (by omega), if_neg (by omega), if_neg (by omega), if_neg (by omega)]

/-- The four reserved ranges of the map (R61). -/
def ReservedOffset (a : Nat) : Prop :=
  (0x0038 ≤ a ∧ a < 0x0100) ∨ (0x0348 ≤ a ∧ a < 0x0400) ∨
    (0x0520 ≤ a ∧ a < 0x10000) ∨ 0x10000 + Config.msgbufBytes ≤ a

theorem region_of_reservedOffset {a : Nat} (h : ReservedOffset a) : region a = .reserved := by
  obtain ⟨hl, hu⟩ | ⟨hl, hu⟩ | ⟨hl, hu⟩ | hl := h
  · rw [region_eq_scalarRegion hu, scalarRegion_above_msgcap hl]
  · rw [region_eq_tableRegion (by omega) (by omega), tableRegion_above_padbuf hl hu]
  · rw [region_eq_tableRegion (by omega) hu, tableRegion_above_iv hl]
  · exact region_above_msgbuf hl

/-! ### The regions a host may not write -/

/-- A host write of the region is turned away, whatever the state and the value written. -/
def Region.WriteProtected (r : Region) : Prop :=
  ∀ (s : State) (v : Word), writeRegion s v r = .error .bus

/-- `W`, `PADBUF`, `K`, `IV` and the gaps between them: no host write gets through. -/
theorem tableRegion_writeProtected (off : Nat) : (tableRegion off).WriteProtected := by
  unfold tableRegion
  split_ifs <;> exact fun _ _ => rfl

/-- The read-only locations of the map (R61, R69): five registers, `STATE`, `HEXOUT` up to the end of
`PADBUF`, and `K` with `IV`. -/
def ReadOnlyOffset (a : Nat) : Prop :=
  a = 0x0004 ∨ a = 0x0014 ∨ a = 0x0028 ∨ a = 0x0030 ∨ a = 0x0034 ∨
    (0x0100 ≤ a ∧ a < 0x0120) ∨ (0x01C0 ≤ a ∧ a < 0x0348) ∨ (0x0400 ≤ a ∧ a < 0x0520)

theorem region_of_readOnlyOffset {a : Nat} (h : ReadOnlyOffset a) : (region a).WriteProtected := by
  obtain rfl | rfl | rfl | rfl | rfl | ⟨hl, hu⟩ | ⟨hl, hu⟩ | ⟨hl, hu⟩ := h
  · exact fun _ _ => rfl
  · exact fun _ _ => rfl
  · exact fun _ _ => rfl
  · exact fun _ _ => rfl
  · exact fun _ _ => rfl
  · rw [region_eq_stateRegion hl (by omega), stateRegion_hash hu]
    exact fun _ _ => rfl
  · rcases Nat.lt_or_ge a 0x0200 with hs | ht
    · rw [region_eq_stateRegion (by omega) hs, stateRegion_hexout hl]
      exact fun _ _ => rfl
    · rw [region_eq_tableRegion ht (by omega)]
      exact tableRegion_writeProtected a
  · rw [region_eq_tableRegion (by omega) (by omega)]
    exact tableRegion_writeProtected a

theorem region_writeProtected {a : Nat} (h : ReservedOffset a ∨ ReadOnlyOffset a) :
    (region a).WriteProtected := by
  obtain hr | hw := h
  · rw [region_of_reservedOffset hr]
    exact fun _ _ => rfl
  · exact region_of_readOnlyOffset hw

/-! ### One host access -/

/-- An aligned word read of an idle core passes the checks of R66 and reaches its region. -/
theorem memRead_of_idle {s : State} {off : Word} (hb : s.status.busy = false)
    (ha : off.toNat % 4 = 0) : memRead s off 4 = readRegion s (region off.toNat) := by
  unfold memRead
  simp [hb, ha]

/-- An aligned word write of an idle core passes the checks of R67 and reaches its region. -/
theorem memWrite_of_idle {s : State} {off : Word} (v : Word) (hb : s.status.busy = false)
    (ha : off.toNat % 4 = 0) : memWrite s off 4 v = writeRegion s v (region off.toNat) := by
  unfold memWrite
  simp [hb, ha]

theorem hostRead_of_error {s : State} {off : Word} {size : Nat} {f : Fault}
    (h : memRead s off size = .error f) : hostRead s off size = .fault f := by
  unfold hostRead
  rw [h]

theorem hostWrite_of_error {s : State} {off v : Word} {size : Nat} {f : Fault}
    (h : memWrite s off size v = .error f) : hostWrite s off size v = .fault f := by
  unfold hostWrite
  rw [h]

theorem step_read {s : State} {off : Word} {size : Nat} {rest : List HostOp} (hc : s.coreTurn = false)
    (hi : s.inputs = .read off size :: rest) :
    step s = hostRead { s with inputs := rest, delay := s.delay - 1 } off size :=
  (step_host hc).trans (hostTurn_cons hi)

theorem step_write {s : State} {off v : Word} {size : Nat} {rest : List HostOp}
    (hc : s.coreTurn = false) (hi : s.inputs = .write off size v :: rest) :
    step s = hostWrite { s with inputs := rest, delay := s.delay - 1 } off size v :=
  (step_host hc).trans (hostTurn_cons hi)

theorem step_read_reserved {s : State} {off : Word} {rest : List HostOp} (hb : s.status.busy = false)
    (ha : off.toNat % 4 = 0) (hi : s.inputs = .read off 4 :: rest) (hr : ReservedOffset off.toNat) :
    step s = .fault .bus := by
  rw [step_read (not_coreTurn_of_idle hb) hi]
  apply hostRead_of_error
  rw [memRead_of_idle (by exact hb) ha, region_of_reservedOffset hr]
  rfl

theorem step_write_protected {s : State} {off v : Word} {rest : List HostOp}
    (hb : s.status.busy = false) (ha : off.toNat % 4 = 0) (hi : s.inputs = .write off 4 v :: rest)
    (hw : (region off.toNat).WriteProtected) : step s = .fault .bus := by
  rw [step_write (not_coreTurn_of_idle hb) hi]
  apply hostWrite_of_error
  rw [memWrite_of_idle v (by exact hb) ha]
  exact hw _ v

/-- Settles O49: the map gives every reserved offset the region `reserved` and every read-only one a
region that is write-protected, and an idle core's bus asks the region alone. -/
theorem reservedAndReadOnlyAccessesAreBusFaults :
    Obligations.ReservedAndReadOnlyAccessesAreBusFaults := by
  intro s off v rest hb ha
  exact ⟨fun hi hr => step_read_reserved hb ha hi hr,
    fun hi hw => step_write_protected hb ha hi (region_writeProtected hw)⟩

end Sys2Proof.Machine
end

section
/-! The execute step of a latched word: what the decoder answers on each of the stretches its checks cut the
words into, and the step that follows (spec/30_encoding.md R94, R95, R97; spec/60_exceptions.md R260). -/

namespace Sys2Proof

/-! ### The fields of a word against zero -/

theorem nField_eq_zero_iff {w : Word} : nField w = 0 ↔ w.toNat / 256 % 32 = 0 := by
  rw [← nField_toNat]
  exact BitVec.toNat_inj.symm

theorem rsvField_eq_zero_iff {w : Word} : rsvField w = 0 ↔ w.toNat / 8192 = 0 := by
  rw [← rsvField_toNat]
  exact BitVec.toNat_inj.symm

/-! ### The decoder, check by check -/

variable {w : Word} {i : Instr}

/-- The first check of R97. -/
theorem decode_of_unassigned (h : assignedTo (opField w) (nField w) = none) :
    decode w = .error .illegalOpcode := by
  unfold decode
  rw [h]

/-- The checks of R97 that follow an assigned `OP`. -/
theorem decode_of_assigned (h : assignedTo (opField w) (nField w) = some i) :
    decode w = if rsvField w ≠ 0 then .error .reservedField
      else if nField w ≠ i.rotateField then .error .reservedField else .ok i := by
  unfold decode
  rw [h]

theorem decode_of_rsvField_ne_zero (h : assignedTo (opField w) (nField w) = some i)
    (hr : rsvField w ≠ 0) : decode w = .error .reservedField := by
  rw [decode_of_assigned h, if_pos hr]

theorem decode_of_nField_ne (h : assignedTo (opField w) (nField w) = some i)
    (hr : rsvField w = 0) (hn : nField w ≠ i.rotateField) : decode w = .error .reservedField := by
  rw [decode_of_assigned h, if_neg (not_not_intro hr), if_pos hn]

theorem decode_of_nField_eq (h : assignedTo (opField w) (nField w) = some i)
    (hr : rsvField w = 0) (hn : nField w = i.rotateField) : decode w = .ok i := by
  rw [decode_of_assigned h, if_neg (not_not_intro hr), if_neg (not_not_intro hn)]

/-! ### The command of a word that passes the checks -/

theorem assignedTo_rotr {op : BitVec 8} {n : BitVec 5} (h : op.toNat = 0x02) :
    assignedTo op n = some (.rotr n) := by
  obtain rfl : op = 0x02 := BitVec.eq_of_toNat_eq h
  rfl

/-- A word that passes the checks is the word of its command (R98). -/
theorem encode_of_fields (h : assignedTo (opField w) (nField w) = some i)
    (hr : rsvField w = 0) (hn : nField w = i.rotateField) : encode i = w := by
  obtain ⟨ho, hn', hr'⟩ := encode_fields i
  obtain ⟨hop, -⟩ := assignedTo_eq_some h
  exact eq_of_fields (ho.trans hop) (hn'.trans hn.symm) (hr'.trans hr.symm)

theorem rotateField_of_ne_rotr (h : assignedTo (opField w) (nField w) = some i)
    (ho : (opField w).toNat ≠ 0x02) : i.rotateField = 0 :=
  (assignedTo_eq_some h).2.trans (if_neg ho)

/-- `ROTR 0` is the only command that is not valid (R92). -/
theorem Instr.wf_of_rotateField_ne_zero (h : i.opcode = 0x02 → i.rotateField ≠ 0) : i.wf = true := by
  cases i
  case rotr n => exact bne_iff_ne.mpr (h rfl)
  all_goals rfl

namespace Machine

/-! ### The execute step -/

section

variable {s : State}

theorem step_of_decode_error {e : ErrCode} (hc : s.coreTurn = true) (hd : decode s.cmd = .error e) :
    step s = raiseError e s := by
  rw [step_core hc]
  unfold executeLatched
  rw [hd]

theorem step_of_decode_ok (hc : s.coreTurn = true) (hd : decode s.cmd = .ok i) :
    step s = exec i s := by
  rw [step_core hc]
  unfold executeLatched
  rw [hd]

theorem exec_rotr_zero (s : State) : exec (.rotr 0) s = raiseError .badRotate s := rfl

/-- R97's last check, which the model makes in ROTR's meaning (log entry 8). -/
theorem step_rotr_zero (hc : s.coreTurn = true) (ho : (opField s.cmd).toNat = 0x02)
    (hr : rsvField s.cmd = 0) (hn : nField s.cmd = 0) : step s = raiseError .badRotate s := by
  have hi := assignedTo_rotr (n := nField s.cmd) ho
  rw [step_of_decode_ok hc (decode_of_nField_eq hi hr rfl), hn, exec_rotr_zero]

/-- An assigned word whose `N` is nonzero in ROTR and zero in every other command (R92, R94) passes every
check of R97. -/
theorem step_of_valid_word (hc : s.coreTurn = true)
    (hi : assignedTo (opField s.cmd) (nField s.cmd) = some i) (hr : rsvField s.cmd = 0)
    (hother : (opField s.cmd).toNat ≠ 0x02 → nField s.cmd = 0)
    (hrotr : (opField s.cmd).toNat = 0x02 → nField s.cmd ≠ 0) :
    i.wf = true ∧ encode i = s.cmd ∧ step s = exec i s := by
  obtain ⟨hop, hrot⟩ := assignedTo_eq_some hi
  have hn : nField s.cmd = i.rotateField := by
    rw [hrot]
    split
    · rfl
    · exact hother ‹_›
  refine ⟨Instr.wf_of_rotateField_ne_zero fun h => ?_, encode_of_fields hi hr hn,
    step_of_decode_ok hc (decode_of_nField_eq hi hr hn)⟩
  rw [← hn]
  exact hrotr (congrArg BitVec.toNat (hop.symm.trans h))

end

/-- Settles O2: the five clauses are the five ways through the decoder's checks, once the fields of the
word are read as bit vectors. -/
theorem latchedWordIsCheckedInDecodeOrder : Obligations.LatchedWordIsCheckedInDecodeOrder := by
  intro s hc op n rsv assigned
  have hop : (opField s.cmd).toNat = op := opField_toNat s.cmd
  have hn : nField s.cmd = 0 ↔ n = 0 := nField_eq_zero_iff
  have hrsv : rsvField s.cmd = 0 ↔ rsv = 0 := rsvField_eq_zero_iff
  simp only [ne_eq, ← hop, ← hn, ← hrsv]
  have command (h : (opField s.cmd).toNat ∈ assigned) :
      ∃ i, assignedTo (opField s.cmd) (nField s.cmd) = some i :=
    Option.ne_none_iff_exists'.mp fun hnone => assignedTo_eq_none.mp hnone h
  refine ⟨fun ho => ?_, fun ho hr => ?_, fun ho hr hne hn0 => ?_, step_rotr_zero hc,
    fun ho hr hother hrotr => ?_⟩
  · exact step_of_decode_error hc (decode_of_unassigned (assignedTo_eq_none.mpr ho))
  · obtain ⟨i, hi⟩ := command ho
    exact step_of_decode_error hc (decode_of_rsvField_ne_zero hi hr)
  · obtain ⟨i, hi⟩ := command ho
    have hfield : nField s.cmd ≠ i.rotateField := by rwa [rotateField_of_ne_rotr hi hne]
    exact step_of_decode_error hc (decode_of_nField_ne hi hr hfield)
  · obtain ⟨i, hi⟩ := command ho
    exact ⟨i, step_of_valid_word hc hi hr hother hrotr⟩

end Machine

end Sys2Proof
end

section
/-! The commands of the bitwise primitives: what their functions do bit by bit, and the laws of the sigmas
(spec/40_bitops.md R121 to R129). -/

namespace Sys2Proof

/-- Only 32 rotate amounts: `OP` and `N` do not overlap (R90, R98). -/
theorem encode_rotr (n : BitVec 5) : encode (.rotr n) = BitVec.ofNat 32 (2 + 256 * n.toNat) := by
  revert n
  decide

namespace Machine

/-! ### The state after a primitive -/

/-- How the statements write a next state with `RESULT` and success. -/
theorem State.setResult_setStatus_success (s : State) (v : Word) :
    { s with result := some v, status := ⟨false, true, false, 0⟩ } =
      (s.setResult v).setStatus statusSuccess := rfl

theorem addMod32_eq_ofNat (a b : Word) :
    addMod32 a b = BitVec.ofNat 32 ((a.toNat + b.toNat) % 2 ^ 32) := by
  apply BitVec.eq_of_toNat_eq
  rw [addMod32, BitVec.toNat_add, BitVec.toNat_ofNat, Nat.mod_mod]

/-! ### The sigmas, bit by bit -/

/-- The shape of σ0 and σ1: the shift brings in zeros, which a bit beyond 31 reads as. -/
theorem xor_rotr_rotr_ushiftRight_getLsbD (x : Word) {a b i : Nat} (c : Nat) (ha : 0 < a ∧ a < 32)
    (hb : 0 < b ∧ b < 32) (hi : i < 32) :
    (rotr x a ^^^ rotr x b ^^^ (x >>> c)).getLsbD i =
      ((x.getLsbD ((i + a) % 32) ^^ x.getLsbD ((i + b) % 32)) ^^ x.getLsbD (i + c)) := by
  rw [BitVec.getLsbD_xor, BitVec.getLsbD_xor, rotr_getLsbD x ha.1 ha.2 hi, rotr_getLsbD x hb.1 hb.2 hi,
    BitVec.getLsbD_ushiftRight, Nat.add_comm c i]

/-- The shape of Σ0 and Σ1. -/
theorem xor_rotr_rotr_rotr_getLsbD (x : Word) {a b c i : Nat} (ha : 0 < a ∧ a < 32)
    (hb : 0 < b ∧ b < 32) (hc : 0 < c ∧ c < 32) (hi : i < 32) :
    (rotr x a ^^^ rotr x b ^^^ rotr x c).getLsbD i =
      ((x.getLsbD ((i + a) % 32) ^^ x.getLsbD ((i + b) % 32)) ^^ x.getLsbD ((i + c) % 32)) := by
  rw [BitVec.getLsbD_xor, BitVec.getLsbD_xor, rotr_getLsbD x ha.1 ha.2 hi, rotr_getLsbD x hb.1 hb.2 hi,
    rotr_getLsbD x hc.1 hc.2 hi]

/-! ### Linearity over xor -/

/-- R129: `f(x xor y) = f(x) xor f(y)`. -/
def XorLinear (f : Word → Word) : Prop := ∀ x y : Word, f (x ^^^ y) = f x ^^^ f y

theorem XorLinear.xor {f g : Word → Word} (hf : XorLinear f) (hg : XorLinear g) :
    XorLinear fun x => f x ^^^ g x := by
  intro x y
  simp only [hf x y, hg x y]
  ac_rfl

theorem XorLinear.map_zero {f : Word → Word} (hf : XorLinear f) : f 0 = 0 := by
  calc f 0 = f (0 ^^^ 0) := by rw [BitVec.xor_self]; rfl
    _ = f 0 ^^^ f 0 := hf 0 0
    _ = 0 := BitVec.xor_self

theorem xorLinear_ushiftRight (n : Nat) : XorLinear (· >>> n) :=
  fun x y => BitVec.ushiftRight_xor_distrib x y n

/-- A rotation moves the bits of both arguments to the same places. -/
theorem xorLinear_rotr {n : Nat} (hn : 0 < n ∧ n < 32) : XorLinear (rotr · n) := by
  intro x y
  apply BitVec.eq_of_getLsbD_eq
  intro i hi
  simp only [BitVec.getLsbD_xor, rotr_getLsbD _ hn.1 hn.2 hi]

theorem xorLinear_littleSigma0 : XorLinear littleSigma0 :=
  ((xorLinear_rotr (by decide)).xor (xorLinear_rotr (by decide))).xor (xorLinear_ushiftRight 3)

theorem xorLinear_littleSigma1 : XorLinear littleSigma1 :=
  ((xorLinear_rotr (by decide)).xor (xorLinear_rotr (by decide))).xor (xorLinear_ushiftRight 10)

theorem xorLinear_bigSigma0 : XorLinear bigSigma0 :=
  ((xorLinear_rotr (by decide)).xor (xorLinear_rotr (by decide))).xor (xorLinear_rotr (by decide))

theorem xorLinear_bigSigma1 : XorLinear bigSigma1 :=
  ((xorLinear_rotr (by decide)).xor (xorLinear_rotr (by decide))).xor (xorLinear_rotr (by decide))

/-! ### The statements of the family -/

/-- Settles O14: the bits move as `rotr_getLsbD` says, for `N` from 1 to 31; `N = 0` is the error branch of
ROTR's meaning. -/
theorem rotrMovesBitsCyclically : Obligations.RotrMovesBitsCyclically := by
  refine ⟨encode_rotr, fun s x n hx hn => ⟨rotr x n.toNat, ?_, fun i hi => ?_⟩, fun s => ?_⟩
  · rw [State.setResult_setStatus_success]
    exact execRotr_next.mpr (.inr ⟨hn, x, hx, rfl⟩)
  · have hpos : 0 < n.toNat := Nat.pos_of_ne_zero fun h => hn (BitVec.eq_of_toNat_eq h)
    exact rotr_getLsbD x hpos n.isLt hi
  · exact execRotr_next.mpr (.inl ⟨rfl, rfl⟩)

/-- Settles O15: both results are two rotations and a shift. -/
theorem smallSigmasMixRotationsAndAShift : Obligations.SmallSigmasMixRotationsAndAShift := by
  refine ⟨rfl, rfl, fun s x hx => ?_⟩
  simp only [State.setResult_setStatus_success]
  exact ⟨⟨littleSigma0 x, execSsig0_next.mpr ⟨x, hx, rfl⟩,
      fun _ => xor_rotr_rotr_ushiftRight_getLsbD x 3 (by decide) (by decide)⟩,
    ⟨littleSigma1 x, execSsig1_next.mpr ⟨x, hx, rfl⟩,
      fun _ => xor_rotr_rotr_ushiftRight_getLsbD x 10 (by decide) (by decide)⟩⟩

/-- Settles O16: both results are three rotations. -/
theorem bigSigmasMixThreeRotations : Obligations.BigSigmasMixThreeRotations := by
  refine ⟨rfl, rfl, fun s x hx => ?_⟩
  simp only [State.setResult_setStatus_success]
  exact ⟨⟨bigSigma0 x, execBsig0_next.mpr ⟨x, hx, rfl⟩,
      fun _ => xor_rotr_rotr_rotr_getLsbD x (by decide) (by decide) (by decide)⟩,
    ⟨bigSigma1 x, execBsig1_next.mpr ⟨x, hx, rfl⟩,
      fun _ => xor_rotr_rotr_rotr_getLsbD x (by decide) (by decide) (by decide)⟩⟩

/-- Settles O17: `choice` and `majority` bit by bit, written to `RESULT`. -/
theorem chooseAndMajorityPerBit : Obligations.ChooseAndMajorityPerBit := by
  refine ⟨rfl, rfl, fun s x y z hx hy hz => ?_⟩
  simp only [State.setResult_setStatus_success]
  exact ⟨⟨choice x y z, execCh_next.mpr ⟨x, y, z, hx, hy, hz, rfl⟩, fun _ => choice_getLsbD x y z⟩,
    ⟨majority x y z, execMaj_next.mpr ⟨x, y, z, hx, hy, hz, rfl⟩,
      fun i _ => by rw [majority_getLsbD, decide_eq_true_iff]⟩⟩

/-- Settles O18: each sigma is an xor of linear maps, and a linear map takes 0 to 0; the all-ones word is a
single value to evaluate. -/
theorem sigmasAreLinear : Obligations.SigmasAreLinear :=
  ⟨fun x y => ⟨xorLinear_littleSigma0 x y, xorLinear_littleSigma1 x y, xorLinear_bigSigma0 x y,
      xorLinear_bigSigma1 x y⟩,
    xorLinear_littleSigma0.map_zero, xorLinear_littleSigma1.map_zero, xorLinear_bigSigma0.map_zero,
    xorLinear_bigSigma1.map_zero, by decide, by decide, by decide, by decide⟩

/-- Settles O13: the machine's addition of words is addition modulo 2^32. -/
theorem addWritesTheSumModuloTwoToThe32 : Obligations.AddWritesTheSumModuloTwoToThe32 := by
  refine ⟨rfl, fun s a b ha hb => ?_⟩
  rw [State.setResult_setStatus_success, ← addMod32_eq_ofNat]
  exact execAdd_next.mpr ⟨a, b, ha, hb, rfl⟩

end Machine

end Sys2Proof
end

section
/-! The message schedule: the recurrence as an invariant of the expansion, and what SCHED answers
(spec/41_schedule.md R150, R151). -/

namespace Sys2Proof.Machine

/-! ### The recurrence -/

/-- R150's equation for word `i`. -/
def RecurrenceAt (w : Nat → Word) (i : Nat) : Prop :=
  w i = w (i - 16) + littleSigma0 (w (i - 15)) + w (i - 7) + littleSigma1 (w (i - 2))

/-- Every word of `l` from 16 on is the one its predecessors give. -/
def FollowsRecurrence (l : List Word) : Prop :=
  ∀ i, 16 ≤ i → i < l.length → RecurrenceAt (l.getD · 0) i

/-- The sixteen words of a block follow it: there is no word 16 yet. -/
theorem followsRecurrence_of_length_le {l : List Word} (h : l.length ≤ 16) : FollowsRecurrence l :=
  fun _ h16 hi => absurd (hi.trans_le h) (Nat.not_lt.mpr h16)

/-- The equation at `i` speaks of the words up to `i` alone. -/
theorem RecurrenceAt.congr {v w : Nat → Word} {i : Nat} (hw : RecurrenceAt w i)
    (h : ∀ j, j ≤ i → v j = w j) : RecurrenceAt v i := by
  unfold RecurrenceAt
  rw [h i le_rfl, h (i - 16) (Nat.sub_le ..), h (i - 15) (Nat.sub_le ..), h (i - 7) (Nat.sub_le ..),
    h (i - 2) (Nat.sub_le ..)]
  exact hw

/-- The word `nextScheduleWord` adds satisfies the equation, whose right side looks back into `l`. -/
theorem recurrenceAt_nextScheduleWord {l : List Word} (h : 0 < l.length) :
    RecurrenceAt ((l ++ [nextScheduleWord l]).getD · 0) l.length := by
  have hlast : (l ++ [nextScheduleWord l]).getD l.length 0 = nextScheduleWord l := by simp
  have hback {k : Nat} (hk : 0 < k) :
      (l ++ [nextScheduleWord l]).getD (l.length - k) 0 = l.getD (l.length - k) 0 :=
    List.getD_append _ _ _ _ (Nat.sub_lt h hk)
  unfold RecurrenceAt
  simp only [hlast, hback, Nat.ofNat_pos]
  rfl

theorem FollowsRecurrence.append_nextScheduleWord {l : List Word} (hl : FollowsRecurrence l) :
    FollowsRecurrence (l ++ [nextScheduleWord l]) := by
  intro i h16 hi
  rw [List.length_append, List.length_singleton] at hi
  obtain hlt | rfl : i < l.length ∨ i = l.length := by omega
  · exact (hl i h16 hlt).congr fun j hj => List.getD_append _ _ _ _ (hj.trans_lt hlt)
  · exact recurrenceAt_nextScheduleWord (by omega)

theorem FollowsRecurrence.expand {l : List Word} (hl : FollowsRecurrence l) (n : Nat) :
    FollowsRecurrence (expandSchedule n l) := by
  induction n generalizing l with
  | zero => exact hl
  | succ n ih => exact ih hl.append_nextScheduleWord

/-! ### The words of a block's schedule -/

variable {blk : List Byte}

theorem schedule_followsRecurrence (h : blk.length = 64) : FollowsRecurrence (schedule blk) :=
  (followsRecurrence_of_length_le (by rw [wordsOf_length, h])).expand 48

/-- R150: the first sixteen words are the block's, big-endian. -/
theorem schedule_getD_toNat (h : blk.length = 64) {j : Nat} (hj : j < 16) :
    ((schedule blk).getD j 0).toNat =
      (blk.getD (4 * j) 0).toNat * 2 ^ 24 + (blk.getD (4 * j + 1) 0).toNat * 2 ^ 16 +
        (blk.getD (4 * j + 2) 0).toNat * 2 ^ 8 + (blk.getD (4 * j + 3) 0).toNat := by
  rw [schedule, expandSchedule_getD _ _ _ (by rw [wordsOf_length]; omega),
    wordsOf_getD _ _ (by omega), be32_toNat]

/-! ### The statement of the family -/

/-- How the statement writes the state SCHED answers. -/
theorem State.setSchedule_setStatus_success (s : State) {l : List Word} (h : l.length = 64) :
    { s with
      w := Vector.ofFn (fun i : Fin 64 => some (l.getD i 0))
      status := ⟨false, true, false, 0⟩ } = (s.setSchedule l).setStatus statusSuccess := by
  rw [← cells_eq_ofFn 64 l 0 h.ge]
  rfl

theorem execSched_of_block_none {s : State} (h : s.block = none) :
    execSched s = .fault .unwritten := by
  rw [execSched, h, withOperand_none]

/-- Settles O19: the witness is the schedule of the bytes held in `BLOCK`, which follows the recurrence
because every step of the expansion keeps it. -/
theorem schedWritesTheRecurrence : Obligations.SchedWritesTheRecurrence := by
  refine ⟨rfl, fun s b hb => ?_, fun s j hj hnone => ?_⟩
  · have hblock : s.block = some ((List.range 64).map b) := Memory.readBytes_of_cells hb
    have hlen : ((List.range 64).map b).length = 64 := Memory.readBytes_length hblock
    have hbyte {k : Nat} (hk : k < 64) : ((List.range 64).map b).getD k 0 = b k := by simp [hk]
    refine ⟨((schedule ((List.range 64).map b)).getD · 0), ?_, fun j hj => ?_, fun i h16 hi => ?_⟩
    · rw [State.setSchedule_setStatus_success s (schedule_length hlen)]
      exact execSched_next.mpr ⟨_, hblock, rfl⟩
    · rw [schedule_getD_toNat hlen hj, hbyte (by omega), hbyte (by omega), hbyte (by omega),
        hbyte (by omega)]
    · exact schedule_followsRecurrence hlen i h16 (by rwa [schedule_length hlen])
  · exact execSched_of_block_none (Memory.readBytes_eq_none hj hnone)

end Sys2Proof.Machine
end

section
/-! One compression round on `STATE`: when the operands are held, and what ROUND then answers
(spec/42_round.md R160, R161; spec/60_exceptions.md R264, R265). -/

namespace Sys2Proof.Machine

variable {s : State}

/-- Step 7 of the check order (R264), for every command. -/
theorem exec_of_operand_missing {i : Instr} (hchecked : turnedAway i s = false)
    (hmissing : operandsHeld i s = false) : exec i s = .fault .unwritten := by
  simpa [hchecked, hmissing] using exec_checks i s

theorem State.hashWords_of_st {x : Eight Word} (h : s.st = eightMap some x) : s.hashWords = some x :=
  (eightAll_eq_some_iff s.st x).mpr h

theorem State.hashWords_of_slot_none {i : Nat} (h : eightAt s.st i = none) : s.hashWords = none :=
  eightAll_eq_none h

/-- ROUND's operands are the eight words of `STATE`, `OPA` and `OPB` (R161). -/
theorem operandsHeld_round (s : State) :
    operandsHeld .round s = (s.hashWords.isSome && s.opa.isSome && s.opb.isSome) := rfl

/-- One empty cell is enough. -/
theorem operandsHeld_round_eq_false {i : Nat}
    (h : eightAt s.st i = none ∨ s.opa = none ∨ s.opb = none) : operandsHeld .round s = false := by
  rw [operandsHeld_round]
  obtain hst | hopa | hopb := h
  · simp [State.hashWords_of_slot_none hst]
  · simp [hopa]
  · simp [hopb]

/-- Settles O20: with every operand held, ROUND writes `compressionRound` of the old words to `STATE`;
with one missing, it stops at the operand check. -/
theorem roundTransformsTheState : Obligations.RoundTransformsTheState := by
  refine ⟨rfl, fun s a b c d e f g h k w hst hopa hopb => ?_, fun s i hmissing => ?_⟩
  · have hx : s.hashWords = some ⟨a, b, c, d, e, f, g, h⟩ := State.hashWords_of_st hst
    exact execRound_next.mpr ⟨_, k, w, hx, hopa, hopb, rfl⟩
  · exact exec_of_operand_missing rfl (operandsHeld_round_eq_false hmissing)

end Sys2Proof.Machine
end

section
/-! The compressor: its rounds one by one, and what COMPRESS answers (spec/43_compressor.md R170, R171;
spec/60_exceptions.md R264, R265). -/

namespace Sys2Proof.Machine

/-! ### The rounds, one by one -/

/-- The state before round `t`, when the rounds start from `x` with the schedule `w` (R170). -/
def stateBeforeRound (x : Eight Word) (w : List Word) (t : Nat) : Eight Word :=
  ((roundConstants.zip w).take t).foldl (fun u kw => compressionRound u kw.1 kw.2) x

variable {x : Eight Word} {w : List Word} {blk : List Byte}

theorem stateBeforeRound_zero : stateBeforeRound x w 0 = x := rfl

theorem stateBeforeRound_succ (hw : w.length = 64) {t : Nat} (ht : t < 64) :
    stateBeforeRound x w (t + 1) =
      compressionRound (stateBeforeRound x w t) (roundConstants.getD t 0) (w.getD t 0) := by
  have hk : t < roundConstants.length := ht
  have hv : t < w.length := hw ▸ ht
  have hzip : t < (roundConstants.zip w).length := by
    rw [List.length_zip]
    exact lt_min hk hv
  rw [stateBeforeRound, List.take_succ_eq_append_getElem hzip, List.foldl_append, List.getElem_zip,
    List.getD_eq_getElem _ _ hk, List.getD_eq_getElem _ _ hv]
  rfl

/-- After round 63 all rounds are done. -/
theorem stateBeforeRound_sixtyFour : stateBeforeRound x w 64 = sixtyFourRounds x w := by
  have hzip : (roundConstants.zip w).length ≤ 64 := by
    rw [List.length_zip]
    exact min_le_left ..
  rw [stateBeforeRound, List.take_of_length_le hzip]
  rfl

/-- What follows the last round is the feed-forward. -/
theorem compress_state : (compress x blk).state =
    eightZip (fun u v => u + v) (stateBeforeRound x (schedule blk) 64) x := by
  rw [stateBeforeRound_sixtyFour]
  rfl

/-! ### The statement of the family -/

variable {s : State}

/-- How the statement writes the state COMPRESS answers. -/
theorem exec_compress_of_operands (hx : s.hashWords = some x) (hblk : s.block = some blk)
    (hw : (schedule blk).length = 64) :
    exec .compress s = .next { s with
      w := Vector.ofFn (fun i : Fin 64 => some ((schedule blk).getD i 0))
      st := eightMap some (compress x blk).state
      hidden := (s.setSnap x).hidden
      status := ⟨false, true, false, 0⟩ } := by
  rw [← cells_eq_ofFn 64 _ 0 hw.ge]
  exact execCompress_next.mpr ⟨x, blk, hx, hblk, rfl⟩

/-- COMPRESS's operands are the eight words of `STATE` and the bytes of `BLOCK` (R171). -/
theorem operandsHeld_compress (s : State) :
    operandsHeld .compress s = (s.hashWords.isSome && s.block.isSome) := rfl

/-- One empty cell is enough. -/
theorem operandsHeld_compress_eq_false {i j : Nat} (hj : j < 64)
    (h : eightAt s.st i = none ∨ Memory.read s.mem (0x0140 + j) = none) :
    operandsHeld .compress s = false := by
  rw [operandsHeld_compress]
  obtain hst | hcell := h
  · simp [State.hashWords_of_slot_none hst]
  · have hblock : s.block = none := Memory.readBytes_eq_none hj hcell
    simp [hblock]

/-- Settles O21: the sequence is the state before each round, which the compressor's fold goes through;
with an operand missing, COMPRESS stops at the operand check. -/
theorem compressRunsSixtyFourRoundsAndFeedsForward :
    Obligations.CompressRunsSixtyFourRoundsAndFeedsForward := by
  refine ⟨rfl, fun s x blk hst hblk => ?_, fun s i j hj hmissing => ?_⟩
  · have hw : (schedule blk).length = 64 := schedule_length (Memory.readBytes_length hblk)
    refine ⟨stateBeforeRound x (schedule blk), (s.setSnap x).hidden, stateBeforeRound_zero,
      fun t ht => stateBeforeRound_succ hw ht, ?_⟩
    rw [← compress_state]
    exact exec_compress_of_operands (State.hashWords_of_st hst) hblk hw
  · exact exec_of_operand_missing rfl (operandsHeld_compress_eq_false hj hmissing)

end Sys2Proof.Machine
end

section
/-! The padding: how long it is, what PAD leaves in memory, and how the padded message falls into blocks
(spec/44_padding.md R180 to R184; spec/46_length_extension.md R228; spec/70_reset_and_hazards.md R298). -/

namespace Sys2Proof.Machine

/-! ### The length of the padding -/

theorem pad_length_bounds (len : Nat) : 9 ≤ (pad len).length ∧ (pad len).length ≤ 72 := by
  have hz := (padZeros_spec len).1
  rw [pad_length]
  omega

theorem length_add_pad_length_mod (len : Nat) : (len + (pad len).length) % 64 = 0 := by
  have hz := (padZeros_spec len).2
  rw [pad_length]
  omega

/-- Of the numbers below 64, only one makes the padded length a multiple of 64. -/
theorem padZeros_minimal {len y : Nat} (h : y < padZeros len) : (len + 1 + y + 8) % 64 ≠ 0 := by
  obtain ⟨hlt, hmod⟩ := padZeros_spec len
  omega

/-- Settles O24: the bounds and the multiple of 64 leave one length for each residue of `len`. -/
theorem paddedLengthIsAMultipleOf64 : Obligations.PaddedLengthIsAMultipleOf64 := by
  intro len
  obtain ⟨hlo, hhi⟩ := pad_length_bounds len
  have hmod := length_add_pad_length_mod len
  refine ⟨hlo, hhi, hmod, ?_, ?_, ?_⟩ <;> omega

/-! ### What PAD leaves in memory -/

theorem padbufBytes_getElem_of_lt {p : List Byte} {j : Nat} (h : j < p.length) :
    (padbufBytes p)[j]? = p[j]? :=
  List.getElem?_append_left h

theorem padbufBytes_getElem_of_ge {p : List Byte} {j : Nat} (h : p.length ≤ j) (hj : j < 72) :
    (padbufBytes p)[j]? = some 0 := by
  rw [padbufBytes, List.getElem?_append_right h, List.getElem?_replicate, if_pos (by omega)]

section

variable (s : State) {len : Nat}

/-- `PADBUF` is the only part of memory that is written. -/
theorem State.setPadding_read (a : Nat) : Memory.read (s.setPadding len).mem a =
    if 0x0300 ≤ a ∧ a < 0x0348 then (padbufBytes (pad len))[a - 0x0300]? else Memory.read s.mem a := by
  rw [State.setPadding_mem, Memory.read_writeBytes, padbufBytes_length]
  rfl

theorem State.setPadding_read_outside {a : Nat} (h : a < 0x0300 ∨ 0x0348 ≤ a) :
    Memory.read (s.setPadding len).mem a = Memory.read s.mem a := by
  rw [State.setPadding_read, if_neg (by omega)]

theorem State.setPadding_read_padbuf {j : Nat} (hj : j < 72) :
    Memory.read (s.setPadding len).mem (0x0300 + j) = (padbufBytes (pad len))[j]? := by
  rw [State.setPadding_read, if_pos (by omega), Nat.add_sub_cancel_left]

theorem State.setPadding_read_pad {j : Nat} (hj : j < 9 + padZeros len) :
    Memory.read (s.setPadding len).mem (0x0300 + j) = (pad len)[j]? := by
  have hz := (padZeros_spec len).1
  rw [State.setPadding_read_padbuf s (by omega),
    padbufBytes_getElem_of_lt (by rw [pad_length]; exact hj)]

theorem State.setPadding_read_tail {j : Nat} (hj : 9 + padZeros len ≤ j) (hu : j < 72) :
    Memory.read (s.setPadding len).mem (0x0300 + j) = some 0 := by
  rw [State.setPadding_read_padbuf s hu,
    padbufBytes_getElem_of_ge (by rw [pad_length]; exact hj) hu]

/-- How the statement writes the state PAD answers. -/
theorem State.setPadding_setStatus_success :
    (s.setPadding len).setStatus statusSuccess = { s with
      mem := (s.setPadding len).mem
      padlen := BitVec.ofNat 32 (9 + padZeros len)
      status := ⟨false, true, false, 0⟩ } := by
  apply State.ext
  case status => rfl
  all_goals simp [pad_length]

end

/-- Settles O23: the witness is the state with the padding of `LEN` written, and `z` is the model's own
count of zero bytes. -/
theorem padWritesThePaddingOfLen : Obligations.PadWritesThePaddingOfLen := by
  refine ⟨rfl, fun s => ?_⟩
  obtain ⟨hmark, hzeros, hcount⟩ := pad_getElem s.len
  refine ⟨_, padZeros s.len, execPad_next.mpr rfl, (padZeros_spec s.len).2,
    fun y => padZeros_minimal, State.setPadding_setStatus_success s, ?_, fun j h1 hj => ?_,
    fun k hk => ?_, fun j => State.setPadding_read_tail s, fun a => State.setPadding_read_outside s⟩
  · exact (State.setPadding_read_pad s (j := 0) (by omega)).trans hmark
  · exact (State.setPadding_read_pad s (by omega)).trans (hzeros j h1 hj)
  · have e : 0x0300 + 1 + padZeros s.len + k = 0x0300 + (1 + padZeros s.len + k) := by omega
    rw [e]
    exact (State.setPadding_read_pad s (by omega)).trans (hcount k hk)

/-! ### The blocks of a padded message -/

/-- The first `n` blocks joined are the first `64·n` bytes. -/
theorem flatten_blocks (buf : List Byte) (n : Nat) :
    ((List.range n).map fun j => (buf.drop (64 * j)).take 64).flatten = buf.take (64 * n) := by
  induction n with
  | zero => rfl
  | succ n ih =>
    rw [List.range_succ, List.map_append, List.flatten_append, ih, Nat.mul_succ, List.take_add]
    simp

theorem blocksOf_flatten {buf : List Byte} (h : buf.length % 64 = 0) : (blocksOf buf).flatten = buf := by
  rw [blocksOf, flatten_blocks, List.take_of_length_le (by omega)]

theorem hashBlocks_length (m : List Byte) : (hashBlocks m).length = (m.length + 8) / 64 + 1 := by
  obtain ⟨hlo, hhi⟩ := pad_length_bounds m.length
  have hmod := length_add_pad_length_mod m.length
  rw [hashBlocks, blocksOf_length, List.length_append]
  omega

theorem hashBlocks_flatten (m : List Byte) : (hashBlocks m).flatten = m ++ pad m.length :=
  blocksOf_flatten (by rw [List.length_append]; exact length_add_pad_length_mod m.length)

/-- The padded original message fills whole blocks, so the suffix and its padding do too (R228). -/
theorem suffix_length_add_pad_length_mod (n k : Nat) :
    (k + (pad (extendedLength n k)).length) % 64 = 0 := by
  have horig := length_add_pad_length_mod n
  have hext := length_add_pad_length_mod (extendedLength n k)
  rw [extendedLength] at hext ⊢
  omega

theorem forgeBlocks_length (n : Nat) (x : List Byte) :
    64 * (forgeBlocks n x).length = x.length + (pad (extendedLength n x.length)).length := by
  have hmod := suffix_length_add_pad_length_mod n x.length
  rw [forgeBlocks, blocksOf_length, List.length_append]
  omega

/-- Settles O25: both counts follow from the padded lengths being multiples of 64. -/
theorem blockCountsOfHashAndForge : Obligations.BlockCountsOfHashAndForge :=
  ⟨fun m => ⟨hashBlocks_length m, fun _ => blocksOf_block_length, hashBlocks_flatten m⟩,
    fun n x => ⟨forgeBlocks_length n x, fun _ => blocksOf_block_length⟩⟩

end Sys2Proof.Machine
end

section
/-! The serializer, the hash driver and their commands INIT, SERIAL and HASH: the digest byte by byte, the
compressions one by one, and what the commands answer (spec/45_hasher.md R200 to R205;
spec/60_exceptions.md R264, R265). -/

namespace Sys2Proof.Machine

/-! ### The serialized state, byte by byte -/

theorem eightList_getElem {α : Type} (x : Eight α) {i : Nat} (hi : i < 8) :
    (eightList x)[i]? = some (eightAt x i) := by
  obtain rfl | rfl | rfl | rfl | rfl | rfl | rfl | rfl :
      i = 0 ∨ i = 1 ∨ i = 2 ∨ i = 3 ∨ i = 4 ∨ i = 5 ∨ i = 6 ∨ i = 7 := by omega
  all_goals rfl

/-- Four bytes a word: byte `4i + k` of the text is byte `k` of word `i`. -/
theorem flatMap_be32Bytes_getElem {l : List Word} {v : Word} {i k : Nat} (hv : l[i]? = some v)
    (hk : k < 4) : (l.flatMap be32Bytes)[4 * i + k]? = (be32Bytes v)[k]? := by
  induction l generalizing i with
  | nil => simp at hv
  | cons u l ih =>
    rw [List.flatMap_cons]
    cases i with
    | zero =>
      obtain rfl : u = v := by simpa using hv
      rw [Nat.mul_zero, Nat.zero_add]
      exact List.getElem?_append_left hk
    | succ i =>
      rw [List.getElem?_append_right (by rw [be32Bytes_length]; omega), be32Bytes_length,
        show 4 * (i + 1) + k - 4 = 4 * i + k by omega]
      exact ih (by simpa using hv)

/-- R201: word `i` is written to the bytes `4i` to `4i + 3`, its highest bits first. -/
theorem serialize_getElem (x : Eight Word) {i k : Nat} (hi : i < 8) (hk : k < 4) :
    (serialize x)[4 * i + k]? = some (BitVec.ofNat 8 ((eightAt x i).toNat / 2 ^ (24 - 8 * k))) := by
  rw [serialize, flatMap_be32Bytes_getElem (eightList_getElem x hi) hk, be32Bytes_getElem _ hk]

/-! ### INIT and SERIAL -/

section

variable (s : State) (x : Eight Word)

/-- `DIGEST` is the only part of memory that a written digest changes. -/
theorem State.bufWrite_digest_read (a : Nat) :
    Memory.read (s.bufWrite .digest (serialize x)).mem a =
      if 0x0120 ≤ a ∧ a < 0x0140 then (serialize x)[a - 0x0120]? else Memory.read s.mem a := by
  rw [State.bufWrite_mem, Memory.read_writeBytes, serialize_length]
  rfl

theorem State.bufWrite_digest_read_digest {i k : Nat} (hi : i < 8) (hk : k < 4) :
    Memory.read (s.bufWrite .digest (serialize x)).mem (0x0120 + 4 * i + k) =
      some (BitVec.ofNat 8 ((eightAt x i).toNat / 2 ^ (24 - 8 * k))) := by
  rw [State.bufWrite_digest_read, if_pos (by omega), Nat.add_assoc, Nat.add_sub_cancel_left,
    serialize_getElem x hi hk]

theorem State.bufWrite_digest_read_outside {a : Nat} (h : a < 0x0120 ∨ 0x0140 ≤ a) :
    Memory.read (s.bufWrite .digest (serialize x)).mem a = Memory.read s.mem a := by
  rw [State.bufWrite_digest_read, if_neg (by omega)]

/-- How the statement writes the state SERIAL answers. -/
theorem State.bufWrite_setStatus_success (b : Buf) (l : List Byte) :
    (s.bufWrite b l).setStatus statusSuccess = { s with
      mem := ((s.bufWrite b l).setStatus statusSuccess).mem
      status := ⟨false, true, false, 0⟩ } := rfl

end

/-- SERIAL's operands are the eight words of `STATE` (R202). -/
theorem operandsHeld_serial (s : State) : operandsHeld .serial s = s.hashWords.isSome := rfl

/-- Settles O26: INIT has no operand and no check, and the statement's eight words are the vector's. -/
theorem initSeedsTheStateFromTheVector : Obligations.InitSeedsTheStateFromTheVector :=
  ⟨rfl, fun _ => execInit_next.mpr rfl⟩

/-- Settles O27: the witness is the state with the serialized words of `STATE` written to `DIGEST`; with a
word missing, SERIAL stops at the operand check. -/
theorem serialWritesTheDigestBigEndian : Obligations.SerialWritesTheDigestBigEndian := by
  refine ⟨rfl, fun s x hst => ?_, fun s i hmissing => ?_⟩
  · refine ⟨_, execSerial_next.mpr ⟨x, State.hashWords_of_st hst, rfl⟩,
      State.bufWrite_setStatus_success s _ _, ?_⟩
    rw [State.setStatus_mem]
    exact ⟨fun i k => State.bufWrite_digest_read_digest s x,
      fun a => State.bufWrite_digest_read_outside s x⟩
  · refine exec_of_operand_missing rfl ?_
    rw [operandsHeld_serial, State.hashWords_of_slot_none hmissing]
    rfl

/-! ### The compressions of a message, one by one -/

/-- What the first `j` blocks leave, compressed from `x` (R203). -/
def compressedAfter (x : Eight Word) (blks : List (List Byte)) (j : Nat) : Compressed :=
  compressBlocks x (blks.take j)

section

variable {x : Eight Word} {blks : List (List Byte)}

theorem compressedAfter_zero_state : (compressedAfter x blks 0).state = x := rfl

theorem compressedAfter_succ {j : Nat} (hj : j < blks.length) :
    compressedAfter x blks (j + 1) = compress (compressedAfter x blks j).state blks[j] := by
  rw [compressedAfter, List.take_succ_eq_append_getElem hj, compressBlocks, List.foldl_append]
  rfl

theorem compressedAfter_length : compressedAfter x blks blks.length = compressBlocks x blks := by
  rw [compressedAfter, List.take_length]

/-- The schedule left is that of the last block. -/
theorem compressBlocks_schedule {j : Nat} (hj : blks.length = j + 1) :
    (compressBlocks x blks).schedule = schedule (blks[j]'(by omega)) := by
  have hlast : compressBlocks x blks =
      compress (compressedAfter x blks j).state (blks[j]'(by omega)) := by
    rw [← compressedAfter_length, ← compressedAfter_succ, hj]
  rw [hlast]
  rfl

end

theorem blocksOf_getElem (buf : List Byte) {j : Nat} (hj : j < (blocksOf buf).length) :
    (blocksOf buf)[j] = (buf.drop (64 * j)).take 64 := by
  simp [blocksOf]

section

variable (m : List Byte)

theorem hashBlocks_getElem {j : Nat} (hj : j < (hashBlocks m).length) :
    (hashBlocks m)[j] = ((m ++ pad m.length).drop (64 * j)).take 64 :=
  blocksOf_getElem _ hj

theorem hashBlocks_length_eq_div : (hashBlocks m).length = (m ++ pad m.length).length / 64 :=
  blocksOf_length _

theorem hashRun_schedule_length : (hashRun m).schedule.length = 64 := by
  rw [hashRun, compressBlocks_schedule (hashBlocks_length m)]
  exact schedule_length (blocksOf_block_length (List.getElem_mem _))

/-- R203: the last block of a message is the last 64 bytes of the message and its padding. -/
theorem hashRun_schedule : (hashRun m).schedule =
    schedule ((m ++ pad m.length).drop ((m ++ pad m.length).length - 64)) := by
  have hlast := hashBlocks_length m
  have hdiv := hashBlocks_length_eq_div m
  have hmod : (m ++ pad m.length).length % 64 = 0 := by
    rw [List.length_append, length_add_pad_length_mod]
  rw [hashRun, compressBlocks_schedule hlast, hashBlocks_getElem,
    List.take_of_length_le (by rw [List.length_drop]; omega),
    show (m ++ pad m.length).length - 64 = 64 * ((m.length + 8) / 64) by omega]

end

/-- Settles O28: the sequence is the state after each block, which the driver's fold goes through. -/
theorem hashIteratesTheCompressor : Obligations.HashIteratesTheCompressor := by
  intro m
  have hstate : (hashRun m).state = (compressedAfter initVector (hashBlocks m)
      ((m ++ pad m.length).length / 64)).state := by
    rw [← hashBlocks_length_eq_div, compressedAfter_length, hashRun]
  refine ⟨fun j => (compressedAfter initVector (hashBlocks m) j).state, compressedAfter_zero_state,
    fun j hj => ?_, ?_, hstate, hashRun_schedule m⟩
  · have hblk : j < (hashBlocks m).length := by rwa [hashBlocks_length_eq_div]
    rw [← hashBlocks_getElem m hblk]
    exact congrArg Compressed.state (compressedAfter_succ hblk)
  · rw [hashDigest, hstate]

/-! ### What HASH writes -/

section

variable (s : State) (n : Nat) (r : Compressed) (blks : List (List Byte))

/-- `DIGEST` and `PADBUF` are the only parts of memory that HASH writes. -/
theorem State.setPadding_setCompressed_read (a : Nat) :
    Memory.read ((s.setPadding n).setCompressed r blks).mem a =
      if 0x0120 ≤ a ∧ a < 0x0140 then (serialize r.state)[a - 0x0120]?
      else if 0x0300 ≤ a ∧ a < 0x0348 then (padbufBytes (pad n))[a - 0x0300]?
      else Memory.read s.mem a := by
  rw [State.setCompressed_mem, ← State.bufWrite_mem, State.bufWrite_digest_read, State.setPadding_read]

theorem State.setPadding_setCompressed_read_outside {a : Nat} (hdigest : a < 0x0120 ∨ 0x0140 ≤ a)
    (hpadbuf : a < 0x0300 ∨ 0x0348 ≤ a) :
    Memory.read ((s.setPadding n).setCompressed r blks).mem a = Memory.read s.mem a := by
  rw [State.setPadding_setCompressed_read, if_neg (by omega), if_neg (by omega)]

/-- What the two buffers hold afterwards does not depend on what they held. -/
theorem State.setPadding_setCompressed_read_congr (s' : State) {a : Nat}
    (h : (0x0120 ≤ a ∧ a < 0x0140) ∨ (0x0300 ≤ a ∧ a < 0x0348)) :
    Memory.read ((s'.setPadding n).setCompressed r blks).mem a =
      Memory.read ((s.setPadding n).setCompressed r blks).mem a := by
  simp only [State.setPadding_setCompressed_read]
  obtain hdigest | hpadbuf := h
  · rw [if_pos hdigest, if_pos hdigest]
  · rw [if_pos hpadbuf, if_pos hpadbuf]

theorem State.setCompressed_readBytes_digest :
    Memory.readBytes (s.setCompressed r blks).mem 0x0120 32 = some (serialize r.state) := by
  rw [State.setCompressed_mem]
  exact Memory.readBytes_writeBytes_self _ _ _

/-- `PADBUF` lies above `DIGEST`, so the digest leaves the padding as PAD writes it. -/
theorem State.setPadding_setCompressed_readBytes_padbuf :
    Memory.readBytes ((s.setPadding n).setCompressed r blks).mem 0x0300 72 =
      some (padbufBytes (pad n)) := by
  have hbelow : bufBase .digest + (serialize r.state).length ≤ 0x0300 := by
    rw [serialize_length]
    decide
  rw [State.setCompressed_mem, Memory.readBytes_writeBytes_disjoint _ _ (.inr hbelow),
    State.setPadding_mem]
  nth_rw 1 [← padbufBytes_length n]
  exact Memory.readBytes_writeBytes_self _ _ _

/-- How the statement writes the state HASH answers. -/
theorem State.setPadding_setCompressed_setStatus_success (hw : r.schedule.length = 64) :
    ((s.setPadding n).setCompressed r blks).setStatus statusSuccess = { s with
      mem := (((s.setPadding n).setCompressed r blks).setStatus statusSuccess).mem
      padlen := BitVec.ofNat 32 (pad n).length
      w := Vector.ofFn (fun i : Fin 64 => some (r.schedule.getD i 0))
      st := eightMap some r.state
      hidden := (((s.setPadding n).setCompressed r blks).setStatus statusSuccess).hidden
      status := ⟨false, true, false, 0⟩ } := by
  rw [← cells_eq_ofFn 64 _ 0 hw.ge]
  apply State.ext
  case status => rfl
  all_goals simp

end

/-! ### What HASH answers -/

section

variable {s : State}

/-- HASH's operand is the message (R204). -/
theorem operandsHeld_hash : operandsHeld .hash s = s.message.isSome := rfl

theorem turnedAway_hash_eq_false (h : s.len ≤ Config.msgbufBytes) : turnedAway .hash s = false :=
  decide_eq_false h.not_gt

/-- States that agree on `LEN` and on the cells it counts hold the same message. -/
theorem State.message_congr {s' : State} (hlen : s.len = s'.len)
    (h : ∀ j, j < s.len → Memory.read s.mem (0x10000 + j) = Memory.read s'.mem (0x10000 + j)) :
    s'.message = s.message := by
  rw [State.message, State.message, ← hlen]
  exact (Memory.readBytes_congr h).symm

end

/-- Settles O29: the witness is the state with the padding and then what the compressions leave. -/
theorem hashCommandHashesTheMessageBuffer : Obligations.HashCommandHashesTheMessageBuffer := by
  refine ⟨rfl, fun s hlong => execHash_next.mpr (.inl ⟨hlong, rfl⟩), fun s j hfits hj hnone => ?_,
    fun s m hlen hfits hm => ?_⟩
  · refine exec_of_operand_missing (turnedAway_hash_eq_false hfits) ?_
    have hmessage : s.message = none := Memory.readBytes_eq_none hj hnone
    rw [operandsHeld_hash, hmessage]
    rfl
  · have hlen : s.len = m.length := hlen
    have hmessage : s.message = some m := by rw [State.message, hlen]; exact hm
    refine ⟨_, execHash_next.mpr (.inr ⟨hlen.trans_le hfits, m, hmessage, rfl⟩), ?_⟩
    rw [hlen]
    refine ⟨State.setPadding_setCompressed_setStatus_success s _ _ _ (hashRun_schedule_length m), ?_⟩
    rw [State.setStatus_mem]
    exact ⟨State.setCompressed_readBytes_digest _ _ _,
      State.setPadding_setCompressed_readBytes_padbuf s _ _ _,
      fun a => State.setPadding_setCompressed_read_outside s _ _ _⟩

/-- Settles O30: on success HASH has read `LEN` and the message, which both states share, and it
overwrites every cell that the statement names. -/
theorem hashDependsOnlyOnItsMessage : Obligations.HashDependsOnlyOnItsMessage := by
  intro s s' t hlo hhi hcells hexec hok
  have hlen : s.len = s'.len := by rw [State.len, State.len, hlo, hhi]
  obtain ⟨-, rfl⟩ | ⟨hfits, m, hmessage, rfl⟩ := execHash_next.mp hexec
  · cases hok
  · have hmessage' : s'.message = some m := (State.message_congr hlen hcells).trans hmessage
    refine ⟨_, execHash_next.mpr (.inr ⟨hlen.ge.trans hfits, m, hmessage', rfl⟩), ?_⟩
    rw [← hlen]
    refine ⟨by simp, by simp, by simp, by simp, fun a ha => ?_⟩
    rw [State.setStatus_mem, State.setStatus_mem]
    exact State.setPadding_setCompressed_read_congr s _ _ _ s' ha

end Sys2Proof.Machine
end

section
/-! The hex codec: the value of a character, a byte as two characters, and texts decoded and encoded
(spec/46_length_extension.md R222, R223). -/

namespace Sys2Proof.Machine

/-! ### One character -/

/-- R222: the value of a character, by where it stands among the bytes. -/
theorem nib_eq (c : Byte) : nib c =
    if 0x30 ≤ c.toNat ∧ c.toNat ≤ 0x39 then some (BitVec.ofNat 8 (c.toNat - 0x30))
    else if 0x61 ≤ c.toNat ∧ c.toNat ≤ 0x66 then some (BitVec.ofNat 8 (c.toNat - 0x61 + 10))
    else if 0x41 ≤ c.toNat ∧ c.toNat ≤ 0x46 then some (BitVec.ofNat 8 (c.toNat - 0x41 + 10))
    else none := by
  have hc := c.isLt
  simp only [nib, BitVec.le_def, BitVec.ofNat_eq_ofNat, BitVec.toNat_ofNat, Nat.reducePow,
    Nat.reduceMod]
  split_ifs
  · exact congrArg some (ofNat_eq_byte (by bv_omega)).symm
  · exact congrArg some (ofNat_eq_byte (by bv_omega)).symm
  · exact congrArg some (ofNat_eq_byte (by bv_omega)).symm
  · rfl

theorem nib_lt_sixteen {c v : Byte} (h : nib c = some v) : v.toNat < 16 := by
  rw [nib_eq] at h
  split_ifs at h <;>
  · cases h
    rw [BitVec.toNat_ofNat]
    omega

/-- R223: the character of a value, as a number. -/
theorem hexch_eq_ofNat (v : Byte) :
    hexch v = BitVec.ofNat 8 (if v.toNat < 10 then 0x30 + v.toNat else 0x61 + v.toNat - 10) := by
  have hv := v.isLt
  simp only [hexch, BitVec.lt_def, BitVec.ofNat_eq_ofNat, BitVec.toNat_ofNat, Nat.reducePow,
    Nat.reduceMod]
  split_ifs
  · exact (ofNat_eq_byte (by bv_omega)).symm
  · exact (ofNat_eq_byte (by bv_omega)).symm

theorem hexch_toNat {v : Byte} (hv : v.toNat < 16) :
    (hexch v).toNat = if v.toNat < 10 then 0x30 + v.toNat else 0x57 + v.toNat := by
  rw [hexch_eq_ofNat, BitVec.toNat_ofNat]
  split_ifs <;> omega

theorem nib_hexch {v : Byte} (hv : v.toNat < 16) : nib (hexch v) = some v := by
  rw [nib_eq, hexch_toNat hv]
  by_cases hdigit : v.toNat < 10
  · rw [if_pos hdigit, if_pos (by omega)]
    exact congrArg some (ofNat_eq_byte (by omega))
  · rw [if_neg hdigit, if_neg (by omega), if_pos (by omega)]
    exact congrArg some (ofNat_eq_byte (by omega))

/-- Only the upper-case characters are not the characters of their values. -/
theorem hexch_nib {c v : Byte} (h : nib c = some v) (hc : ¬ (0x41 ≤ c.toNat ∧ c.toNat ≤ 0x46)) :
    hexch v = c := by
  apply BitVec.eq_of_toNat_eq
  rw [hexch_toNat (nib_lt_sixteen h)]
  rw [nib_eq] at h
  split_ifs at h <;>
  · cases h
    rw [BitVec.toNat_ofNat]
    split_ifs <;> omega

/-! ### One byte as two characters -/

theorem highNibble_toNat (b : Byte) : (b >>> 4).toNat = b.toNat / 16 := by
  rw [BitVec.toNat_ushiftRight, Nat.shiftRight_eq_div_pow]

theorem lowNibble_toNat (b : Byte) : (b &&& 0xF).toNat = b.toNat % 16 := by
  rw [BitVec.toNat_and]
  exact Nat.and_two_pow_sub_one_eq_mod b.toNat 4

theorem nibbles_toNat {x y : Byte} (hx : x.toNat < 16) (hy : y.toNat < 16) :
    (x * 16 + y).toNat = x.toNat * 16 + y.toNat := by
  bv_omega

theorem highNibble_lt (b : Byte) : (b >>> 4).toNat < 16 := by
  have hb := b.isLt
  rw [highNibble_toNat]
  omega

theorem lowNibble_lt (b : Byte) : (b &&& 0xF).toNat < 16 := by
  rw [lowNibble_toNat]
  omega

theorem nibbles_of_byte (b : Byte) : (b >>> 4) * 16 + (b &&& 0xF) = b := by
  apply BitVec.eq_of_toNat_eq
  rw [nibbles_toNat (highNibble_lt b) (lowNibble_lt b), highNibble_toNat, lowNibble_toNat]
  omega

theorem highNibble_nibbles {x y : Byte} (hx : x.toNat < 16) (hy : y.toNat < 16) :
    (x * 16 + y) >>> 4 = x := by
  apply BitVec.eq_of_toNat_eq
  rw [highNibble_toNat, nibbles_toNat hx hy]
  omega

theorem lowNibble_nibbles {x y : Byte} (hx : x.toNat < 16) (hy : y.toNat < 16) :
    (x * 16 + y) &&& 0xF = y := by
  apply BitVec.eq_of_toNat_eq
  rw [lowNibble_toNat, nibbles_toNat hx hy]
  omega

/-! ### Encoded texts -/

theorem hexEncode_cons (b : Byte) (d : List Byte) :
    hexEncode (b :: d) = hexch (b >>> 4) :: hexch (b &&& 0xF) :: hexEncode d := rfl

/-- R223: two characters a byte, the high nibble first. -/
theorem hexEncode_getElem {d : List Byte} {b : Byte} {i : Nat} (hb : d[i]? = some b) :
    (hexEncode d)[2 * i]? = some (hexch (b >>> 4)) ∧
      (hexEncode d)[2 * i + 1]? = some (hexch (b &&& 0xF)) := by
  induction d generalizing i with
  | nil => simp at hb
  | cons c d ih =>
    rw [hexEncode_cons]
    cases i with
    | zero =>
      obtain rfl : c = b := by simpa using hb
      exact ⟨rfl, rfl⟩
    | succ i => exact ih (by simpa using hb)

/-! ### Decoded texts -/

theorem hexPairs_cons_cons {hi lo x y : Byte} {rest d : List Byte} (hx : nib hi = some x)
    (hy : nib lo = some y) (hd : hexPairs rest = some d) :
    hexPairs (hi :: lo :: rest) = some ((x * 16 + y) :: d) := by
  rw [hexPairs, hx, hy, hd]

theorem hexPairs_hexEncode (d : List Byte) : hexPairs (hexEncode d) = some d := by
  induction d with
  | nil => rfl
  | cons b d ih =>
    rw [hexEncode_cons,
      hexPairs_cons_cons (nib_hexch (highNibble_lt b)) (nib_hexch (lowNibble_lt b)) ih,
      nibbles_of_byte]

theorem hexEncode_hexPairs {h d : List Byte} (hd : hexPairs h = some d)
    (hcase : ∀ c ∈ h, ¬ (0x41 ≤ c.toNat ∧ c.toNat ≤ 0x46)) : hexEncode d = h := by
  fun_induction hexPairs h generalizing d with
  | case1 => cases hd; rfl
  | case2 => cases hd
  | case3 hi lo rest x y d' hd' hy hx ih =>
    cases hd
    simp only [List.forall_mem_cons] at hcase
    obtain ⟨hhi, hlo, hrest⟩ := hcase
    have hx16 := nib_lt_sixteen hx
    have hy16 := nib_lt_sixteen hy
    rw [hexEncode_cons, highNibble_nibbles hx16 hy16, lowNibble_nibbles hx16 hy16, hexch_nib hx hhi,
      hexch_nib hy hlo, ih hd' hrest]
  | case4 => cases hd

/-- R222: byte `i` is made of the characters `2i` and `2i + 1`. -/
theorem hexPairs_getD {h d : List Byte} {i : Nat} (hd : hexPairs h = some d) (hi : 2 * i < h.length) :
    ∃ x y, nib (h.getD (2 * i) 0) = some x ∧ nib (h.getD (2 * i + 1) 0) = some y ∧
      d.getD i 0 = x * 16 + y := by
  fun_induction hexPairs h generalizing d i with
  | case1 => simp at hi
  | case2 => cases hd
  | case3 c c' rest x y d' hd' hy hx ih =>
    cases hd
    cases i with
    | zero => exact ⟨x, y, hx, hy, rfl⟩
    | succ i => exact ih hd' (by simp only [List.length_cons] at hi; omega)
  | case4 => cases hd

theorem hexDecode_eq_some_iff {h d : List Byte} :
    hexDecode h = some d ↔ h.length = 64 ∧ hexPairs h = some d := by
  by_cases hl : h.length = 64 <;> simp [hexDecode, hl]

theorem hexDecode_of_length_ne {h : List Byte} (hl : h.length ≠ 64) : hexDecode h = none :=
  if_pos hl

theorem hexDecode_of_nib_none {h : List Byte} (hc : ∃ c ∈ h, nib c = none) : hexDecode h = none := by
  by_cases hl : h.length = 64
  · rw [← Option.isNone_iff_eq_none, hexDecode_isNone hl]
    simpa using hc
  · exact hexDecode_of_length_ne hl

/-- The first law of R223. -/
theorem hexDecode_hexEncode {d : List Byte} (hd : d.length = 32) : hexDecode (hexEncode d) = some d :=
  hexDecode_eq_some_iff.mpr ⟨by rw [hexEncode_length, hd], hexPairs_hexEncode d⟩

/-- The second law of R223. -/
theorem hexEncode_hexDecode {h d : List Byte} (hd : hexDecode h = some d)
    (hcase : ∀ c ∈ h, ¬ (0x41 ≤ c.toNat ∧ c.toNat ≤ 0x46)) : hexEncode d = h :=
  hexEncode_hexPairs (hexDecode_eq_some_iff.mp hd).2 hcase

theorem hexPairs_length {h d : List Byte} (hd : hexPairs h = some d) : h.length = 2 * d.length := by
  fun_induction hexPairs h generalizing d with
  | case1 => cases hd; rfl
  | case2 => cases hd
  | case3 c c' rest x y d' hd' hy hx ih =>
    cases hd
    simp only [List.length_cons, ih hd']
    omega
  | case4 => cases hd

theorem hexDecode_length {h d : List Byte} (hd : hexDecode h = some d) : d.length = 32 := by
  obtain ⟨hl, hpairs⟩ := hexDecode_eq_some_iff.mp hd
  have := hexPairs_length hpairs
  omega

/-- A character that has no value is all that 64 characters can fail by. -/
theorem hexDecode_ne_none {h : List Byte} {v : Nat → Byte} (hl : h.length = 64)
    (hv : ∀ i, i < 64 → nib (h.getD i 0) = some (v i)) : hexDecode h ≠ none := by
  rw [ne_eq, ← Option.isNone_iff_eq_none, hexDecode_isNone hl, List.any_eq_true]
  rintro ⟨c, hc, hnone⟩
  obtain ⟨i, hi, rfl⟩ := List.mem_iff_getElem.mp hc
  rw [← List.getD_eq_getElem _ 0 hi, hv i (hl ▸ hi)] at hnone
  cases hnone

/-- R222: 64 characters that all have a value decode, to a byte for each pair. -/
theorem hexDecode_of_nibs {h : List Byte} {v : Nat → Byte} (hl : h.length = 64)
    (hv : ∀ i, i < 64 → nib (h.getD i 0) = some (v i)) :
    ∃ d, hexDecode h = some d ∧ d.length = 32 ∧
      ∀ i, i < 32 → (d.getD i 0).toNat = (v (2 * i)).toNat * 16 + (v (2 * i + 1)).toNat := by
  obtain ⟨d, hd⟩ := Option.ne_none_iff_exists'.mp (hexDecode_ne_none hl hv)
  refine ⟨d, hd, hexDecode_length hd, fun i hi => ?_⟩
  obtain ⟨x, y, hx, hy, hbyte⟩ := hexPairs_getD (i := i) (hexDecode_eq_some_iff.mp hd).2 (by omega)
  obtain rfl : x = v (2 * i) := Option.some.inj (hx.symm.trans (hv _ (by omega)))
  obtain rfl : y = v (2 * i + 1) := Option.some.inj (hy.symm.trans (hv _ (by omega)))
  rw [hbyte, nibbles_toNat (nib_lt_sixteen hx) (nib_lt_sixteen hy)]

/-- Settles O32: a wrong length or a character without a value ends the decoder, and otherwise each byte
comes from its pair. -/
theorem hexDecodeTakesSixtyFourHexCharacters : Obligations.HexDecodeTakesSixtyFourHexCharacters :=
  ⟨nib_eq, fun _ => hexDecode_of_length_ne, fun _ => hexDecode_of_nib_none,
    fun _ _ => hexDecode_of_nibs⟩

end Sys2Proof.Machine
end

section
/-! The state rebuilt from a digest, and the commands DESER, RECOVERHEX and HEXENC with the round trips they
make with SERIAL (spec/46_length_extension.md R220 to R225, R229; spec/60_exceptions.md R264, R265). -/

namespace Sys2Proof.Machine

/-! ### The deserialized state, word by word -/

theorem eightAt_deserialize (d : List Byte) {i : Nat} (hi : i < 8) :
    eightAt (deserialize d) i = (wordsOf d).getD i 0 := by
  obtain rfl | rfl | rfl | rfl | rfl | rfl | rfl | rfl :
      i = 0 ∨ i = 1 ∨ i = 2 ∨ i = 3 ∨ i = 4 ∨ i = 5 ∨ i = 6 ∨ i = 7 := by omega
  all_goals rfl

/-- R220: word `i` is the number that its four bytes spell. -/
theorem deserialize_toNat {d : List Byte} (hd : d.length = 32) {i : Nat} (hi : i < 8) :
    (eightAt (deserialize d) i).toNat =
      (d.getD (4 * i) 0).toNat * 2 ^ 24 + (d.getD (4 * i + 1) 0).toNat * 2 ^ 16 +
        (d.getD (4 * i + 2) 0).toNat * 2 ^ 8 + (d.getD (4 * i + 3) 0).toNat := by
  rw [eightAt_deserialize d hi, wordsOf_getD _ _ (by omega), be32_toNat]

/-- Byte `i` of a list of `n` bytes given one by one. -/
theorem map_range_getD {n i : Nat} (b : Nat → Byte) (hi : i < n) :
    ((List.range n).map b).getD i 0 = b i := by
  simp [hi]

/-! ### DESER and HEXENC -/

section

variable {s : State}

/-- How the statements write a next state with `STATE` and success. -/
theorem State.setHash_setStatus_success (s : State) (x : Eight Word) :
    { s with st := eightMap some x, status := ⟨false, true, false, 0⟩ } =
      (s.setHash x).setStatus statusSuccess := rfl

theorem State.digest_of_cell_none {j : Nat} (hj : j < 32)
    (hnone : Memory.read s.mem (0x0120 + j) = none) : s.digest = none :=
  Memory.readBytes_eq_none hj hnone

/-- DESER's operand is the digest (R221). -/
theorem operandsHeld_deser : operandsHeld .deser s = s.digest.isSome := rfl

/-- HEXENC's operand is the digest (R225). -/
theorem operandsHeld_hexenc : operandsHeld .hexenc s = s.digest.isSome := rfl

end

/-- Settles O31: the witness is the state that the bytes held in `DIGEST` deserialize to. -/
theorem deserRebuildsTheStateFromTheDigest : Obligations.DeserRebuildsTheStateFromTheDigest := by
  refine ⟨rfl, fun s b hb => ?_, fun s j hj hnone => ?_⟩
  · have hdigest : s.digest = some ((List.range 32).map b) := Memory.readBytes_of_cells hb
    refine ⟨_, execDeser_next.mpr ⟨_, hdigest, State.setHash_setStatus_success s _⟩, fun i hi => ?_⟩
    rw [deserialize_toNat (Memory.readBytes_length hdigest) hi, map_range_getD b (by omega),
      map_range_getD b (by omega), map_range_getD b (by omega), map_range_getD b (by omega)]
  · refine exec_of_operand_missing rfl ?_
    rw [operandsHeld_deser, State.digest_of_cell_none hj hnone]
    rfl

section

variable (s : State) {d : List Byte} (hd : d.length = 32)

include hd

/-- `HEXOUT` is the only part of memory that a written text changes. -/
theorem State.bufWrite_hexout_read (a : Nat) :
    Memory.read (s.bufWrite .hexout (hexEncode d)).mem a =
      if 0x01C0 ≤ a ∧ a < 0x0200 then (hexEncode d)[a - 0x01C0]? else Memory.read s.mem a := by
  rw [State.bufWrite_mem, Memory.read_writeBytes, hexEncode_length, hd]
  rfl

theorem State.bufWrite_hexout_read_hexout {k : Nat} (hk : k < 64) :
    Memory.read (s.bufWrite .hexout (hexEncode d)).mem (0x01C0 + k) = (hexEncode d)[k]? := by
  rw [State.bufWrite_hexout_read s hd, if_pos (by omega), Nat.add_sub_cancel_left]

theorem State.bufWrite_hexout_read_outside {a : Nat} (h : a < 0x01C0 ∨ 0x0200 ≤ a) :
    Memory.read (s.bufWrite .hexout (hexEncode d)).mem a = Memory.read s.mem a := by
  rw [State.bufWrite_hexout_read s hd, if_neg (by omega)]

theorem State.bufWrite_hexout_readBytes :
    Memory.readBytes (s.bufWrite .hexout (hexEncode d)).mem 0x01C0 64 = some (hexEncode d) := by
  refine (Memory.readBytes_eq_some_iff _ _ _ _).mpr ⟨by rw [hexEncode_length, hd], fun k hk => ?_⟩
  exact State.bufWrite_hexout_read_hexout s hd hk

end

/-- Settles O35: the witness is the state with the encoded digest written to `HEXOUT`. -/
theorem hexencWritesLowerCaseHex : Obligations.HexencWritesLowerCaseHex := by
  refine ⟨rfl, fun s b hb => ?_, fun s j hj hnone => ?_⟩
  · have hdigest : s.digest = some ((List.range 32).map b) := Memory.readBytes_of_cells hb
    have hd : ((List.range 32).map b).length = 32 := Memory.readBytes_length hdigest
    refine ⟨_, execHexenc_next.mpr ⟨_, hdigest, rfl⟩, State.bufWrite_setStatus_success s _ _, ?_⟩
    rw [State.setStatus_mem]
    refine ⟨fun i hi => ?_, fun a => State.bufWrite_hexout_read_outside s hd⟩
    have hbyte : ((List.range 32).map b)[i]? = some (b i) := by simp [hi]
    obtain ⟨hhigh, hlow⟩ := hexEncode_getElem hbyte
    rw [Nat.add_assoc, State.bufWrite_hexout_read_hexout s hd (by omega), hhigh,
      State.bufWrite_hexout_read_hexout s hd (by omega), hlow, hexch_eq_ofNat, hexch_eq_ofNat,
      highNibble_toNat, lowNibble_toNat]
    exact ⟨rfl, rfl⟩
  · refine exec_of_operand_missing rfl ?_
    rw [operandsHeld_hexenc, State.digest_of_cell_none hj hnone]
    rfl

/-! ### RECOVERHEX -/

section

variable {s : State}

/-- RECOVERHEX's operand is the text, once its length is right (R224). -/
theorem operandsHeld_recoverhex : operandsHeld .recoverhex s = s.hexin.isSome := rfl

theorem turnedAway_recoverhex_eq_false (h : s.hexlen = 64) : turnedAway .recoverhex s = false := by
  simp [turnedAway, h]

theorem State.hexin_of_cell_none {j : Nat} (hj : j < 64)
    (hnone : Memory.read s.mem (0x0180 + j) = none) : s.hexin = none :=
  Memory.readBytes_eq_none hj hnone

end

/-- Eight characters spell a word, two for each of its bytes. -/
theorem foldl_eight_nibbles (n : Nat → Nat) :
    (List.range 8).foldl (fun acc i => acc * 16 + n i) 0 =
      (n 0 * 16 + n 1) * 2 ^ 24 + (n 2 * 16 + n 3) * 2 ^ 16 + (n 4 * 16 + n 5) * 2 ^ 8 +
        (n 6 * 16 + n 7) := by
  simp only [List.range_succ, List.range_zero, List.foldl_append, List.foldl_cons, List.foldl_nil]
  omega

/-- Settles O34: the witness is the state that the decoded text deserializes to, whose words are spelled by
four pairs of characters each. -/
theorem recoverhexRebuildsTheStateFromHex : Obligations.RecoverhexRebuildsTheStateFromHex := by
  refine ⟨rfl, fun s hlen => ?_, fun s j hlen hj hnone => ?_, fun s c j hlen hc hj hnone => ?_,
    fun s c v hlen hc hv => ?_⟩
  · exact execRecoverhex_next.mpr (.inl ⟨hlen, rfl⟩)
  · refine exec_of_operand_missing (turnedAway_recoverhex_eq_false hlen) ?_
    rw [operandsHeld_recoverhex, State.hexin_of_cell_none hj hnone]
    rfl
  · have hhexin : s.hexin = some ((List.range 64).map c) := Memory.readBytes_of_cells hc
    have hbad : hexDecode ((List.range 64).map c) = none :=
      hexDecode_of_nib_none ⟨c j, List.mem_map_of_mem (List.mem_range.mpr hj), hnone⟩
    exact execRecoverhex_next.mpr (.inr ⟨hlen, _, hhexin, .inl ⟨hbad, rfl⟩⟩)
  · have hhexin : s.hexin = some ((List.range 64).map c) := Memory.readBytes_of_cells hc
    have hnibs : ∀ i, i < 64 → nib (((List.range 64).map c).getD i 0) = some (v i) := fun i hi => by
      rw [map_range_getD c hi, hv i hi]
    obtain ⟨d, hd, hdlen, hbyte⟩ := hexDecode_of_nibs (Memory.readBytes_length hhexin) hnibs
    refine ⟨deserialize d, execRecoverhex_next.mpr
      (.inr ⟨hlen, _, hhexin, .inr ⟨d, hd, State.setHash_setStatus_success s _⟩⟩), fun k hk => ?_⟩
    rw [deserialize_toNat hdlen hk, hbyte _ (by omega), hbyte _ (by omega), hbyte _ (by omega),
      hbyte _ (by omega), foldl_eight_nibbles]
    ring_nf

/-! ### Round trips -/

section

variable (s : State) (f : Status)

theorem State.hashWords_setHash (x : Eight Word) :
    ((s.setHash x).setStatus f).hashWords = some x :=
  State.hashWords_of_st (by rw [State.setStatus_st, State.setHash_st])

/-- The digest that a command has written is what the next one reads. -/
theorem State.digest_bufWrite {d : List Byte} (hd : d.length = 32) :
    ((s.bufWrite .digest d).setStatus f).digest = some d := by
  rw [State.digest, State.bufRead, State.setStatus_mem, State.bufWrite_mem, ← hd,
    Memory.readBytes_writeBytes_self]

end

/-- Writing back what a range holds changes no byte. -/
theorem Memory.read_writeBytes_of_readBytes {m : Memory} {a n : Nat} {l : List Byte}
    (h : Memory.readBytes m a n = some l) (x : Nat) :
    Memory.read (Memory.writeBytes m a l) x = Memory.read m x := by
  obtain ⟨hlen, hcells⟩ := (Memory.readBytes_eq_some_iff m a n l).mp h
  rw [Memory.read_writeBytes]
  split
  · have hx := hcells (x - a) (by omega)
    rw [show a + (x - a) = x by omega] at hx
    exact hx.symm
  · rfl

/-- Settles O39: the decoded digest goes through `STATE` and `DIGEST` unchanged, and a text without upper
case is the one its digest encodes to. -/
theorem recoverSerialHexencReproducesTheText : Obligations.RecoverSerialHexencReproducesTheText := by
  intro s h d hlen hhexin hdecode hcase
  have hd : d.length = 32 := hexDecode_length hdecode
  refine ⟨_, _, _, execRecoverhex_next.mpr (.inr ⟨hlen, h, hhexin, .inr ⟨d, hdecode, rfl⟩⟩),
    execSerial_next.mpr ⟨_, State.hashWords_setHash s _ _, rfl⟩,
    execHexenc_next.mpr ⟨d, ?_, rfl⟩, ?_, ?_⟩
  · rw [serialize_deserialize hd, State.digest_bufWrite _ _ hd]
  · rw [serialize_deserialize hd]
    exact State.digest_bufWrite _ _ hd
  · rw [State.setStatus_mem, State.bufWrite_hexout_readBytes _ hd, hexEncode_hexDecode hdecode hcase]

/-- Settles O40: `serialize` and `deserialize` undo each other, and SERIAL after DESER writes back the
bytes that `DIGEST` holds. -/
theorem serialAndDeserUndoEachOther : Obligations.SerialAndDeserUndoEachOther := by
  refine ⟨fun s s1 hexec => ?_, fun s s1 hexec => ?_⟩
  · obtain ⟨x, hx, rfl⟩ := execSerial_next.mp hexec
    refine ⟨_, execDeser_next.mpr ⟨_, State.digest_bufWrite s _ (serialize_length x), rfl⟩, ?_⟩
    rw [State.setStatus_st, State.setHash_st, deserialize_serialize]
    exact ((eightAll_eq_some_iff s.st x).mp hx).symm
  · obtain ⟨d, hd, rfl⟩ := execDeser_next.mp hexec
    refine ⟨_, execSerial_next.mpr ⟨_, State.hashWords_setHash s _ _, rfl⟩, fun a => ?_⟩
    rw [serialize_deserialize (Memory.readBytes_length hd), State.setStatus_mem, State.bufWrite_mem]
    exact Memory.read_writeBytes_of_readBytes hd a

end Sys2Proof.Machine
end

section
/-! FORGE: the compressions of the suffix one by one, what the command answers, the length-extension law, and
what it sees of `ORIGLEN` (spec/46_length_extension.md R226 to R230; spec/60_exceptions.md R264, R265). -/

namespace Sys2Proof.Machine

/-! ### The compressions of the suffix, one by one -/

/-- The last block of a buffer is its last 64 bytes. -/
theorem compressBlocks_blocksOf_schedule (x : Eight Word) {buf : List Byte}
    (hmod : buf.length % 64 = 0) (hne : 0 < buf.length) :
    (compressBlocks x (blocksOf buf)).schedule = schedule (buf.drop (buf.length - 64)) := by
  have hlast : (blocksOf buf).length = (buf.length / 64 - 1) + 1 := by
    rw [blocksOf_length]
    omega
  rw [compressBlocks_schedule hlast, blocksOf_getElem,
    List.take_of_length_le (by rw [List.length_drop]; omega),
    show 64 * (buf.length / 64 - 1) = buf.length - 64 by omega]

section

variable (d : List Byte) (n : Nat) (x : List Byte)

theorem suffix_append_pad_length_mod :
    (x ++ pad (extendedLength n x.length)).length % 64 = 0 := by
  rw [List.length_append, suffix_length_add_pad_length_mod]

/-- The last block of the forgery is the last 64 bytes of the suffix and its padding. -/
theorem forgeRun_schedule : (forgeRun d n x).schedule =
    schedule ((x ++ pad (extendedLength n x.length)).drop
      ((x ++ pad (extendedLength n x.length)).length - 64)) := by
  have hpad := (pad_length_bounds (extendedLength n x.length)).1
  exact compressBlocks_blocksOf_schedule _ (suffix_append_pad_length_mod n x)
    (by rw [List.length_append]; omega)

theorem forgeRun_schedule_length : (forgeRun d n x).schedule.length = 64 := by
  have hpad := (pad_length_bounds (extendedLength n x.length)).1
  have hmod := suffix_append_pad_length_mod n x
  rw [forgeRun_schedule]
  apply schedule_length
  rw [List.length_append] at hmod
  rw [List.length_drop, List.length_append]
  omega

end

/-! ### What FORGE writes -/

/-- What a successful FORGE leaves but for `STATUS`: the padding of `n` bytes, what the compressions leave,
and the text of the last state (R227). -/
def State.setForged (s : State) (n : Nat) (r : Compressed) (blks : List (List Byte)) : State :=
  ((s.setPadding n).setCompressed r blks).bufWrite .hexout (hexEncode (serialize r.state))

section

variable (s : State) (n : Nat) (r : Compressed) (blks : List (List Byte))

/-- `DIGEST`, `HEXOUT` and `PADBUF` are the only parts of memory that FORGE writes. -/
theorem State.setForged_read (a : Nat) : Memory.read (s.setForged n r blks).mem a =
    if 0x01C0 ≤ a ∧ a < 0x0200 then (hexEncode (serialize r.state))[a - 0x01C0]?
    else Memory.read ((s.setPadding n).setCompressed r blks).mem a :=
  State.bufWrite_hexout_read _ (serialize_length _) a

theorem State.setForged_read_outside {a : Nat} (hdigest : a < 0x0120 ∨ 0x0140 ≤ a)
    (hhexout : a < 0x01C0 ∨ 0x0200 ≤ a) (hpadbuf : a < 0x0300 ∨ 0x0348 ≤ a) :
    Memory.read (s.setForged n r blks).mem a = Memory.read s.mem a := by
  rw [State.setForged_read, if_neg (by omega),
    State.setPadding_setCompressed_read_outside s n r blks hdigest hpadbuf]

/-- The text leaves every range outside `HEXOUT` as HASH's writes do. -/
theorem State.setForged_readBytes {a k : Nat} (h : a + k ≤ 0x01C0 ∨ 0x0200 ≤ a) :
    Memory.readBytes (s.setForged n r blks).mem a k =
      Memory.readBytes ((s.setPadding n).setCompressed r blks).mem a k :=
  Memory.readBytes_congr fun i hi => by rw [State.setForged_read, if_neg (by omega)]

theorem State.setForged_readBytes_digest :
    Memory.readBytes (s.setForged n r blks).mem 0x0120 32 = some (serialize r.state) := by
  rw [State.setForged_readBytes s n r blks (.inl (by decide)), State.setCompressed_readBytes_digest]

theorem State.setForged_readBytes_hexout :
    Memory.readBytes (s.setForged n r blks).mem 0x01C0 64 = some (hexEncode (serialize r.state)) :=
  State.bufWrite_hexout_readBytes _ (serialize_length _)

theorem State.setForged_readBytes_padbuf :
    Memory.readBytes (s.setForged n r blks).mem 0x0300 72 = some (padbufBytes (pad n)) := by
  rw [State.setForged_readBytes s n r blks (.inr (by decide)),
    State.setPadding_setCompressed_readBytes_padbuf]

/-- How the statement writes the state FORGE answers. -/
theorem State.setForged_setStatus_success (hw : r.schedule.length = 64) :
    (s.setForged n r blks).setStatus statusSuccess = { s with
      mem := ((s.setForged n r blks).setStatus statusSuccess).mem
      padlen := BitVec.ofNat 32 (pad n).length
      w := Vector.ofFn (fun i : Fin 64 => some (r.schedule.getD i 0))
      st := eightMap some r.state
      hidden := ((s.setForged n r blks).setStatus statusSuccess).hidden
      status := ⟨false, true, false, 0⟩ } := by
  rw [← cells_eq_ofFn 64 _ 0 hw.ge]
  apply State.ext
  case status => rfl
  all_goals simp [State.setForged]

end

/-! ### What FORGE answers -/

section

variable {s : State}

/-- FORGE's operands are the text and the suffix, once the lengths are right (R227). -/
theorem operandsHeld_forge : operandsHeld .forge s = (s.hexin.isSome && s.message.isSome) := rfl

theorem turnedAway_forge_eq_false (hfits : s.len ≤ Config.msgbufBytes) (hlen : s.hexlen = 64) :
    turnedAway .forge s = false := by
  simp [turnedAway, hfits, hlen]

/-- One empty cell is enough. -/
theorem operandsHeld_forge_eq_false {j : Nat}
    (h : (j < 64 ∧ Memory.read s.mem (0x0180 + j) = none) ∨
      (j < s.len ∧ Memory.read s.mem (0x10000 + j) = none)) : operandsHeld .forge s = false := by
  rw [operandsHeld_forge]
  obtain ⟨hj, hnone⟩ | ⟨hj, hnone⟩ := h
  · simp [State.hexin_of_cell_none hj hnone]
  · have hmessage : s.message = none := Memory.readBytes_eq_none hj hnone
    simp [hmessage]

theorem State.message_of_readBytes {x : List Byte} (hlen : s.len = x.length)
    (hx : Memory.readBytes s.mem 0x10000 x.length = some x) : s.message = some x := by
  rw [State.message, hlen]
  exact hx

/-- FORGE on a text that decodes (R226, R227). -/
theorem exec_forge_of_hexDecode {h d x : List Byte} (hfits : s.len ≤ Config.msgbufBytes)
    (hlen : s.hexlen = 64) (hhexin : s.hexin = some h) (hmessage : s.message = some x)
    (hd : hexDecode h = some d) :
    exec .forge s = .next ((s.setForged (extendedLength s.origLen x.length)
      (forgeRun d s.origLen x) (forgeBlocks s.origLen x)).setStatus statusSuccess) :=
  execForge_next.mpr (.inr (.inr ⟨hfits, hlen, h, x, hhexin, hmessage, .inr ⟨d, hd, rfl⟩⟩))

end

/-- Settles O36: the sequence is the state after each block of the suffix, and the witness is the state with
the padding, then what the compressions leave, then the text of the digest. -/
theorem forgeContinuesFromTheDigest : Obligations.ForgeContinuesFromTheDigest := by
  refine ⟨rfl, fun s hlong => ?_, fun s hfits hlen => ?_, fun s j hfits hlen hmissing => ?_,
    fun s h x hx hfits hlen hhexin hmessage hbad => ?_,
    fun s h d x hx hfits hlen hhexin hmessage hd => ?_⟩
  · exact execForge_next.mpr (.inl ⟨hlong, rfl⟩)
  · exact execForge_next.mpr (.inr (.inl ⟨hfits, hlen, rfl⟩))
  · exact exec_of_operand_missing (turnedAway_forge_eq_false hfits hlen)
      (operandsHeld_forge_eq_false hmissing)
  · exact execForge_next.mpr (.inr (.inr ⟨hx.trans_le hfits, hlen, h, x, hhexin,
      State.message_of_readBytes hx hmessage, .inl ⟨hbad, rfl⟩⟩))
  · intro origLen e buf
    have hcount : (forgeBlocks origLen x).length = buf.length / 64 := blocksOf_length buf
    have hstate : (forgeRun d origLen x).state =
        (compressedAfter (deserialize d) (forgeBlocks origLen x) (buf.length / 64)).state := by
      rw [← hcount, compressedAfter_length, forgeRun]
    have hschedule : (forgeRun d origLen x).schedule = schedule (buf.drop (buf.length - 64)) :=
      forgeRun_schedule d origLen x
    refine ⟨_, fun j => (compressedAfter (deserialize d) (forgeBlocks origLen x) j).state,
      compressedAfter_zero_state, fun j hj => ?_,
      exec_forge_of_hexDecode (hx.trans_le hfits) hlen hhexin (State.message_of_readBytes hx hmessage) hd,
      ?_⟩
    · have hblk : j < (forgeBlocks origLen x).length := hcount ▸ hj
      have hcut : (forgeBlocks origLen x)[j] = (buf.drop (64 * j)).take 64 := blocksOf_getElem buf hblk
      rw [← hcut]
      exact congrArg Compressed.state (compressedAfter_succ hblk)
    · simp only [← hstate, ← hschedule]
      refine ⟨State.setForged_setStatus_success s _ _ _ (forgeRun_schedule_length d _ x), ?_⟩
      rw [State.setStatus_mem]
      exact ⟨State.setForged_readBytes_digest s _ _ _, State.setForged_readBytes_hexout s _ _ _,
        State.setForged_readBytes_padbuf s _ _ _, fun a => State.setForged_read_outside s _ _ _⟩

/-! ### Length extension -/

/-- Compressing from where earlier blocks ended continues their compression. -/
theorem compressBlocks_append_state (x : Eight Word) (as bs : List (List Byte)) :
    (compressBlocks (compressBlocks x as).state bs).state = (compressBlocks x (as ++ bs)).state := by
  rw [compressBlocks, compressBlocks, compressBlocks, List.foldl_append]
  cases bs <;> rfl

section

variable (m x : List Byte)

/-- R228: the padded message fills whole blocks, so the extended message is cut where it ends. -/
theorem hashBlocks_append_pad :
    hashBlocks (m ++ pad m.length ++ x) = hashBlocks m ++ forgeBlocks m.length x := by
  have hmod : (m ++ pad m.length).length % 64 = 0 := by
    rw [List.length_append, length_add_pad_length_mod]
  have hlen : (m ++ pad m.length ++ x).length = extendedLength m.length x.length := by
    rw [List.length_append, List.length_append, extendedLength]
  rw [hashBlocks, hlen, List.append_assoc _ x, blocksOf_append hmod, hashBlocks, forgeBlocks]

/-- R228 before the hex codec: the forgery starts where the hash of `m` ended. -/
theorem serialize_forgeRun_hashDigest :
    serialize (forgeRun (hashDigest m) m.length x).state = hashDigest (m ++ pad m.length ++ x) := by
  rw [hashDigest, hashDigest, forgeRun, deserialize_serialize, hashRun, hashRun,
    compressBlocks_append_state, hashBlocks_append_pad]

theorem hexDecode_hexEncode_hashDigest :
    hexDecode (hexEncode (hashDigest m)) = some (hashDigest m) :=
  hexDecode_hexEncode (serialize_length _)

end

/-- Settles O37: the text decodes to the digest, from which the forgery continues. -/
theorem forgeEqualsHashOfTheExtendedMessage : Obligations.ForgeEqualsHashOfTheExtendedMessage := by
  intro m x
  rw [forge, hexDecode_hexEncode_hashDigest, Option.map_some, serialize_forgeRun_hashDigest]

/-- Settles O38: FORGE writes the digest of its compressions and its text, which `m` and `x` determine. -/
theorem forgeCommandForgesTheExtendedDigest : Obligations.ForgeCommandForgesTheExtendedDigest := by
  intro s m x hlen hhexin horig hx hfits hmessage
  have horig : s.origLen = m.length := horig
  refine ⟨_, exec_forge_of_hexDecode (hx.trans_le hfits) hlen hhexin
    (State.message_of_readBytes hx hmessage) (hexDecode_hexEncode_hashDigest m), rfl, ?_⟩
  rw [State.setStatus_mem, State.setForged_readBytes_digest, State.setForged_readBytes_hexout, horig,
    serialize_forgeRun_hashDigest]
  exact ⟨rfl, rfl⟩

/-! ### What FORGE sees of `ORIGLEN` -/

/-- R230: a padded length is its number of blocks. -/
theorem add_pad_length (n : Nat) : n + (pad n).length = 64 * ((n + 8) / 64 + 1) := by
  have hbounds := pad_length_bounds n
  have hmod := length_add_pad_length_mod n
  omega

section

variable {n n' : Nat} (hn : (n + 8) / 64 = (n' + 8) / 64)

include hn

theorem extendedLength_congr (k : Nat) : extendedLength n k = extendedLength n' k := by
  rw [extendedLength, extendedLength, add_pad_length, add_pad_length, hn]

theorem forgeBlocks_congr (x : List Byte) : forgeBlocks n x = forgeBlocks n' x := by
  rw [forgeBlocks, forgeBlocks, extendedLength_congr hn]

theorem forgeRun_congr (d x : List Byte) : forgeRun d n x = forgeRun d n' x := by
  rw [forgeRun, forgeRun, forgeBlocks_congr hn]

theorem forge_congr (h x : List Byte) : forge h n x = forge h n' x := by
  simp only [forge, forgeRun_congr hn]

end

/-- The only fault of a command is a missing operand, met where no check turns it away (R264, R265). -/
theorem exec_eq_fault {i : Instr} {s : State} {f : Fault} (h : exec i s = .fault f) :
    f = .unwritten ∧ turnedAway i s = false ∧ operandsHeld i s = false := by
  have hends := exec_ends i s
  have hchecks := exec_checks i s
  rw [h] at hends hchecks
  split at hchecks
  · obtain ⟨e, he, -⟩ := hchecks
    cases he
  · split at hchecks
    · rename_i hturned hmissing
      cases hends
      exact ⟨rfl, Bool.eq_false_iff.mpr hturned, hmissing⟩
    · split at hchecks
      · cases hchecks
      · obtain ⟨t, ht, -⟩ := hchecks
        cases ht

/-- `ORIGLEN <- lo, hi` (R26). -/
def State.setOrigLen (s : State) (lo hi : Word) : State := { s with origLo := lo, origHi := hi }

section

variable (s : State) (lo hi : Word)

theorem State.setOrigLen_origLen : (s.setOrigLen lo hi).origLen = hi.toNat * 2 ^ 32 + lo.toNat := rfl

/-- FORGE's writes neither read nor write `ORIGLEN`. -/
theorem State.setForged_setOrigLen (n : Nat) (r : Compressed) (blks : List (List Byte)) (f : Status) :
    ((s.setForged n r blks).setStatus f).setOrigLen lo hi =
      ((s.setOrigLen lo hi).setForged n r blks).setStatus f := by
  apply State.ext
  all_goals simp [State.setForged, State.setOrigLen]

/-- FORGE's checks do not look at `ORIGLEN`. -/
theorem exec_forge_setOrigLen_of_fault {f : Fault} (h : exec .forge s = .fault f) :
    exec .forge (s.setOrigLen lo hi) = .fault f := by
  obtain ⟨rfl, hturned, hmissing⟩ := exec_eq_fault h
  exact exec_of_operand_missing hturned hmissing

/-- An `ORIGLEN` of the same padded block count takes every next state of FORGE to its like. -/
theorem exec_forge_setOrigLen_of_next {t : State}
    (hn : (s.origLen + 8) / 64 = ((s.setOrigLen lo hi).origLen + 8) / 64)
    (hexec : exec .forge s = .next t) :
    exec .forge (s.setOrigLen lo hi) = .next (t.setOrigLen lo hi) := by
  obtain ⟨hlong, rfl⟩ | ⟨hfits, hlen, rfl⟩ | ⟨hfits, hlen, h, x, hhexin, hmessage, htext⟩ :=
    execForge_next.mp hexec
  · exact execForge_next.mpr (.inl ⟨hlong, rfl⟩)
  · exact execForge_next.mpr (.inr (.inl ⟨hfits, hlen, rfl⟩))
  · obtain ⟨hbad, rfl⟩ | ⟨d, hd, rfl⟩ := htext
    · exact execForge_next.mpr (.inr (.inr ⟨hfits, hlen, h, x, hhexin, hmessage, .inl ⟨hbad, rfl⟩⟩))
    · rw [exec_forge_of_hexDecode (s := s.setOrigLen lo hi) hfits hlen hhexin hmessage hd,
        ← extendedLength_congr hn, ← forgeRun_congr hn, ← forgeBlocks_congr hn,
        ← State.setForged_setOrigLen, State.setForged]

end

/-- Settles O41: FORGE reads `ORIGLEN` only for the length of the extended message, which the padded block
count determines. -/
theorem forgeSeesOnlyThePaddedOriginalLength : Obligations.ForgeSeesOnlyThePaddedOriginalLength :=
  ⟨fun s lo hi hn => ⟨fun _ => exec_forge_setOrigLen_of_next s lo hi hn,
      fun _ => exec_forge_setOrigLen_of_fault s lo hi⟩,
    fun h x _ _ hn => forge_congr hn h x⟩

end Sys2Proof.Machine
end

section
/-! The control command NOP: the words its `OP` makes, and what it answers (spec/47_control.md R250). -/

namespace Sys2Proof

theorem assignedTo_nop (n : BitVec 5) : assignedTo 0x00 n = some .nop := rfl

theorem encode_nop : encode .nop = 0x00000000 := rfl

/-- Among the words with NOP's `OP`, a bit in `N` or in `RSV` is RESERVED_FIELD: the word of NOP is the only
one that has neither. -/
theorem decode_of_opField_nop_of_ne {w : Word} (ho : opField w = 0x00) (hw : w ≠ 0x00000000) :
    decode w = .error .reservedField := by
  have ha : assignedTo (opField w) (nField w) = some .nop := by rw [ho, assignedTo_nop]
  by_cases hr : rsvField w = 0
  · have hn : nField w ≠ Instr.nop.rotateField := fun hn =>
      hw ((encode_of_fields ha hr hn).symm.trans encode_nop)
    exact decode_of_nField_ne ha hr hn
  · exact decode_of_rsvField_ne_zero ha hr

namespace Machine

/-- Settles O12: the two words have NOP's `OP` and are not NOP's word, and NOP is a completion with no update
before it. -/
theorem nopOnlyCompletes : Obligations.NopOnlyCompletes :=
  ⟨encode_nop, decode_of_opField_nop_of_ne rfl (by decide), decode_of_opField_nop_of_ne rfl (by decide),
    fun _ => execNop_next.mpr rfl⟩

end Machine

end Sys2Proof
end

section
/-! The completion of a command and the life of `STATUS`: what a core step and what a host access leave in it,
and the nine steps of the check order on the core (spec/60_exceptions.md R260 to R267). -/

namespace Sys2Proof

/-! ### The commands the late checks ask about -/

/-- The `OP` byte of a command's word (R90). -/
theorem encode_toNat_mod (i : Instr) : (encode i).toNat % 256 = i.opcode.toNat := by
  obtain ⟨hop, -, -⟩ := encode_fields i
  rw [← hop, opField_toNat]

theorem Instr.opcode_eq_hash_iff {i : Instr} : i.opcode.toNat = 0x22 ↔ i = .hash := by
  cases i <;> simp [opcode]

theorem Instr.opcode_eq_recoverhex_iff {i : Instr} : i.opcode.toNat = 0x31 ↔ i = .recoverhex := by
  cases i <;> simp [opcode]

theorem Instr.opcode_eq_forge_iff {i : Instr} : i.opcode.toNat = 0x33 ↔ i = .forge := by
  cases i <;> simp [opcode]

namespace Machine

/-! ### Completion of every command -/

section

variable {i : Instr} {s : State}

theorem exec_of_turnedAway (h : turnedAway i s = true) : ∃ e, exec i s = raiseError e s := by
  have hchecks := exec_checks i s
  rw [if_pos h] at hchecks
  obtain ⟨e, he, -⟩ := hchecks
  exact ⟨e, he⟩

theorem hexin_isSome_of_operandsHeld (hi : i = .recoverhex ∨ i = .forge)
    (hheld : operandsHeld i s = true) : s.hexin.isSome = true := by
  obtain rfl | rfl := hi
  · exact hheld
  · rw [operandsHeld_forge, Bool.and_eq_true] at hheld
    exact hheld.1

/-- A byte with a property is held by one of the cells that were read. -/
theorem Memory.any_range_eq_any_of_readBytes {m : Memory} {a n : Nat} {l : List Byte}
    (h : Memory.readBytes m a n = some l) (p : Byte → Bool) :
    ((List.range n).any fun j => (Memory.read m (a + j)).any p) = l.any p := by
  obtain ⟨rfl, hcell⟩ := (Memory.readBytes_eq_some_iff m a n l).mp h
  rw [Bool.eq_iff_iff, List.any_eq_true, List.any_eq_true]
  constructor
  · rintro ⟨j, hj, hp⟩
    rw [hcell j (List.mem_range.mp hj), Option.any_eq_true] at hp
    obtain ⟨c, hc, hpc⟩ := hp
    exact ⟨c, List.mem_of_getElem? hc, hpc⟩
  · rintro ⟨c, hc, hpc⟩
    obtain ⟨j, hj, rfl⟩ := List.mem_iff_getElem.mp hc
    refine ⟨j, List.mem_range.mpr hj, ?_⟩
    rw [hcell j hj, List.getElem?_eq_getElem hj]
    exact hpc

/-- Step 8's characters, cell by cell (R264). -/
theorem hexin_any_eq_any_range (hheld : s.hexin.isSome = true) (p : Byte → Bool) :
    (s.hexin.getD []).any p =
      (List.range 64).any fun j => (Memory.read s.mem (0x0180 + j)).any p := by
  obtain ⟨l, hl⟩ := Option.isSome_iff_exists.mp hheld
  rw [hl]
  exact (Memory.any_range_eq_any_of_readBytes hl p).symm

/-- Steps 8 and 9 of the check order (R264), once steps 4 to 7 are passed. -/
theorem exec_of_operandsHeld (hchecked : turnedAway i s = false) (hheld : operandsHeld i s = true) :
    if (i = .recoverhex ∨ i = .forge) ∧
        ((List.range 64).any fun j =>
          (Memory.read s.mem (0x0180 + j)).any fun c => (nib c).isNone) = true then
      exec i s = raiseError .invalidDigestEncoding s
    else ∃ t, exec i s = .next t ∧ t.status = statusSuccess := by
  have hchecks := exec_checks i s
  rw [if_neg (Bool.eq_false_iff.mp hchecked), if_neg (by simp [hheld])] at hchecks
  by_cases hi : i = .recoverhex ∨ i = .forge
  · rwa [hexin_any_eq_any_range (hexin_isSome_of_operandsHeld hi hheld)] at hchecks
  · rw [if_neg fun h => hi h.1] at hchecks ⊢
    exact hchecks

theorem exec_completes_of_operandsHeld (hchecked : turnedAway i s = false)
    (hheld : operandsHeld i s = true) : ∃ t, exec i s = .next t := by
  have hlast := exec_of_operandsHeld hchecked hheld
  split at hlast
  · exact ⟨_, hlast⟩
  · obtain ⟨t, ht, -⟩ := hlast
    exact ⟨t, ht⟩

theorem exec_unwritten_iff :
    exec i s = .fault .unwritten ↔ turnedAway i s = false ∧ operandsHeld i s = false :=
  ⟨fun h => (exec_eq_fault h).2, fun ⟨hchecked, hmissing⟩ => exec_of_operand_missing hchecked hmissing⟩

theorem exec_completes_iff :
    (∃ t, exec i s = .next t) ↔ turnedAway i s = true ∨ operandsHeld i s = true := by
  constructor
  · rintro ⟨t, ht⟩
    by_contra hneither
    obtain ⟨hchecked, hmissing⟩ := not_or.mp hneither
    rw [exec_of_operand_missing (Bool.eq_false_iff.mpr hchecked) (Bool.eq_false_iff.mpr hmissing)] at ht
    cases ht
  · intro h
    cases hchecked : turnedAway i s with
    | true =>
      obtain ⟨e, he⟩ := exec_of_turnedAway hchecked
      exact ⟨_, he⟩
    | false =>
      have hheld := h.resolve_left (Bool.eq_false_iff.mp hchecked)
      exact exec_completes_of_operandsHeld hchecked hheld

theorem exec_ne_refused (r : Refusal) : exec i s ≠ .refused r := fun h => by
  have hends := exec_ends i s
  rw [h] at hends
  cases hends

end

/-- Settles O43: the check order has no other ends than an error, a missing operand and a success. -/
theorem commandsCompleteExactlyWhenOperandsAreHeld :
    Obligations.CommandsCompleteExactlyWhenOperandsAreHeld := fun _ _ =>
  ⟨exec_completes_iff, exec_unwritten_iff, fun h => Fault.noConfusion (exec_eq_fault h).1,
    fun h => Fault.noConfusion (exec_eq_fault h).1, exec_ne_refused⟩

/-! ### The execute step that completes -/

theorem errorCode_bounds (e : ErrCode) : 1 ≤ (errorCode e).toNat ∧ (errorCode e).toNat ≤ 5 := by
  cases e <;> decide

section

variable {s t : State}

/-- A core step that answers a next state succeeds, or raises an error that changes `STATUS` alone (R261,
R262). -/
theorem step_core_next (hc : s.coreTurn = true) (h : step s = .next t) :
    t.status = statusSuccess ∨ ∃ e, t = s.setStatus (statusFailed e) := by
  cases hd : decode s.cmd with
  | error e =>
    rw [step_of_decode_error hc hd] at h
    exact .inr ⟨e, (raiseError_eq_next e s t).mp h⟩
  | ok i =>
    have hends := exec_ends i s
    rw [← step_of_decode_ok hc hd, h] at hends
    cases hends with
    | success _ hstatus => exact .inl hstatus
    | error e _ => exact .inr ⟨e, rfl⟩

end

/-- Settles O8: the two ways a core step completes, and the codes of the five errors. -/
theorem completionSetsDoneAndClearsBusy : Obligations.CompletionSetsDoneAndClearsBusy := by
  intro s t hc h
  obtain hsuccess | ⟨e, rfl⟩ := step_core_next hc h
  · exact .inl hsuccess
  · obtain ⟨hl, hu⟩ := errorCode_bounds e
    exact .inr ⟨errorCode e, hl, hu, rfl⟩

/-- Settles O9: success has `ERR = 0`, so the step raised an error. -/
theorem errorChangesNothingButStatus : Obligations.ErrorChangesNothingButStatus := by
  intro s t hc h herr
  obtain hsuccess | ⟨e, rfl⟩ := step_core_next hc h
  · rw [hsuccess] at herr
    cases herr
  · rfl

/-! ### The host's accesses -/

section

variable {s t : State}

theorem hostRead_next {off : Word} {size : Nat} (h : hostRead s off size = .next t) :
    ∃ v, t = { s with replies := s.replies ++ [v] } := by
  unfold hostRead at h
  split at h
  · rename_i v _
    cases h
    exact ⟨v, rfl⟩
  · cases h

theorem hostWrite_next {off v : Word} {size : Nat} (h : hostWrite s off size v = .next t) :
    memWrite s off size v = .ok t := by
  unfold hostWrite at h
  split at h
  · cases h
    assumption
  · cases h

/-- Only offset 0 of the map is `CMD`, and no host write reaches `STATUS` but by a latch (R61, R67). -/
theorem Written.status_cmd_of_ne_zero {off v : Word} (h : Written s off v t) (hoff : off ≠ 0) :
    t.status = s.status ∧ t.cmd = s.cmd := by
  cases h with
  | command h0 => exact absurd h0 hoff
  | opa => exact ⟨rfl, rfl⟩
  | opb => exact ⟨rfl, rfl⟩
  | opc => exact ⟨rfl, rfl⟩
  | lenLo => exact ⟨rfl, rfl⟩
  | lenHi => exact ⟨rfl, rfl⟩
  | origLo => exact ⟨rfl, rfl⟩
  | origHi => exact ⟨rfl, rfl⟩
  | hexlen => exact ⟨rfl, rfl⟩
  | buffer b j _ _ _ => exact ⟨rfl, rfl⟩

/-- A `CMD` write that is taken is a latch (R260). -/
theorem memWrite_cmd_ok {v : Word} (h : memWrite s 0x0000 4 v = .ok t) : t = s.latch v := by
  obtain ⟨-, -, hidle, -⟩ := memWrite_ok h
  rw [memWrite_of_idle v hidle rfl] at h
  exact (Except.ok.inj h).symm

/-- An input that is taken, other than a reset and a `CMD` write, leaves `STATUS` and `CMD` (R267). -/
theorem takeInput_status_cmd {op : HostOp} (h : takeInput op s = .next t) (hreset : op ≠ .reset)
    (hcmd : ∀ v, op ≠ .write 0x0000 4 v) : t.status = s.status ∧ t.cmd = s.cmd := by
  cases op with
  | read off size =>
    obtain ⟨v, rfl⟩ := hostRead_next h
    exact ⟨rfl, rfl⟩
  | write off size v =>
    obtain ⟨rfl, -, -, hwritten⟩ := memWrite_ok (hostWrite_next h)
    exact hwritten.status_cmd_of_ne_zero fun h0 => hcmd v (by rw [h0])
  | poll =>
    obtain ⟨v, rfl⟩ := hostRead_next h
    exact ⟨rfl, rfl⟩
  | reset => exact absurd rfl hreset

theorem takeInput_cmd_write {v : Word} (h : takeInput (.write 0x0000 4 v) s = .next t) :
    t = s.latch v :=
  memWrite_cmd_ok (hostWrite_next h)

end

/-- Settles O7: a read records its word, a write elsewhere than at offset 0 changes one register or buffer
word, and a `CMD` write latches. -/
theorem statusStaysUntilTheNextCommandWrite : Obligations.StatusStaysUntilTheNextCommandWrite := by
  intro s t op rest hc hi h
  rw [step_host hc, hostTurn_cons hi] at h
  have hkeeps := takeInput_status_cmd h
  refine ⟨hkeeps, fun v hop => ?_⟩
  rw [hop] at h
  rw [takeInput_cmd_write h]
  exact ⟨rfl, rfl⟩

/-! ### The check order on the core -/

section

variable {i : Instr} {s : State}

/-- Step 5 of the check order (R264). -/
theorem exec_of_len_above_capacity (hi : i = .hash ∨ i = .forge) (hlong : Config.msgbufBytes < s.len) :
    exec i s = raiseError .lengthRange s := by
  obtain rfl | rfl := hi
  · exact if_pos hlong
  · exact if_pos hlong

/-- Step 6 of the check order (R264). -/
theorem exec_of_hexlen_ne (hi : i = .recoverhex ∨ i = .forge)
    (hfits : ¬ ((i = .hash ∨ i = .forge) ∧ Config.msgbufBytes < s.len)) (hhexlen : s.hexlen ≠ 64) :
    exec i s = raiseError .invalidDigestEncoding s := by
  obtain rfl | rfl := hi
  · exact if_pos hhexlen
  · exact (if_neg fun hlong => hfits ⟨.inr rfl, hlong⟩).trans (if_pos hhexlen)

/-- A valid command is turned away by steps 5 and 6 alone, since step 4 is ROTR 0's (R264). -/
theorem turnedAway_eq_false_of_wf (hwf : i.wf = true)
    (hfits : ¬ ((i = .hash ∨ i = .forge) ∧ Config.msgbufBytes < s.len))
    (hhexlen : ¬ ((i = .recoverhex ∨ i = .forge) ∧ s.hexlen ≠ 64)) : turnedAway i s = false := by
  cases i
  case rotr n => simpa [turnedAway, Instr.wf] using hwf
  case hash => simpa [turnedAway] using hfits
  case recoverhex => simpa [turnedAway] using hhexlen
  case forge =>
    exact turnedAway_forge_eq_false (by simpa using hfits) (by simpa using hhexlen)
  all_goals rfl

end

/-- Settles O42: steps 1 to 4 are the decoder's order of O2, and steps 5 to 9 are the checks of the one
command with the latched word. -/
theorem checksAreMadeInOrder : Obligations.ChecksAreMadeInOrder := by
  intro s hc op n len
  obtain ⟨hunassigned, hreserved, hfield, hrotate, hcommand⟩ := latchedWordIsCheckedInDecodeOrder s hc
  split
  case isTrue hop => exact hunassigned hop
  case isFalse hop =>
  have hop := not_not.mp hop
  split
  case isTrue hrsv => exact hreserved hop hrsv
  case isFalse hrsv =>
  have hrsv := not_not.mp hrsv
  split
  case isTrue hn => exact hfield hop hrsv hn.1 hn.2
  case isFalse hn =>
  split
  case isTrue hzero => exact hrotate hzero.1 hrsv hzero.2
  case isFalse hzero =>
  obtain ⟨i, hwf, hi, hstep⟩ := hcommand hop hrsv
    (fun hother => not_not.mp fun hn0 => hn ⟨hother, hn0⟩) (fun hrotr hn0 => hzero ⟨hrotr, hn0⟩)
  have hopcode : op = i.opcode.toNat := by rw [← encode_toNat_mod, hi]
  simp only [hstep, hopcode, Instr.opcode_eq_hash_iff, Instr.opcode_eq_recoverhex_iff,
    Instr.opcode_eq_forge_iff]
  split
  case isTrue hlong => exact exec_of_len_above_capacity hlong.1 hlong.2
  case isFalse hfits =>
  split
  case isTrue hhexlen => exact exec_of_hexlen_ne hhexlen.1 hfits hhexlen.2
  case isFalse hhexlen =>
  have hchecked : turnedAway i s = false := turnedAway_eq_false_of_wf hwf hfits hhexlen
  refine ⟨i, hi, ?_⟩
  split
  case isTrue hmissing => exact exec_of_operand_missing hchecked hmissing
  case isFalse hheld => exact exec_of_operandsHeld hchecked (eq_true_of_ne_false hheld)

end Machine

end Sys2Proof
end

section
/-! The decoder and the encoder against each other, and the assembler (spec/30_encoding.md R90 to R98). -/

namespace Sys2Proof

/-! ### Decoding undoes encoding -/

theorem assignedTo_opcode (i : Instr) : assignedTo i.opcode i.rotateField = some i := by
  cases i <;> rfl

theorem decode_encode (i : Instr) : decode (encode i) = .ok i := by
  obtain ⟨ho, hn, hr⟩ := encode_fields i
  exact decode_of_nField_eq (by rw [ho, hn, assignedTo_opcode]) hr hn

/-- A word that decodes passes every check of R97, so it is the word of its command. -/
theorem encode_of_decode {w : Word} {i : Instr} (h : decode w = .ok i) : encode i = w := by
  unfold decode at h
  split at h
  case h_1 => cases h
  case h_2 j hj =>
    split_ifs at h with hr hn
    cases h
    exact encode_of_fields hj (not_not.mp hr) (not_not.mp hn)

/-- Settles O1: each direction is one of the two laws above. -/
theorem decodeGivesCommandIffWordIsItsEncoding :
    Obligations.DecodeGivesCommandIffWordIsItsEncoding :=
  fun _ i => ⟨fun h => (encode_of_decode h).symm, fun h => h ▸ decode_encode i⟩

/-- Settles O3: each word is the encoding of its command. -/
theorem wordsOfEachFamilyDecode : Obligations.WordsOfEachFamilyDecode :=
  ⟨decode_encode .nop, decode_encode (.rotr 7), decode_encode .maj, decode_encode .sched,
    decode_encode .round, decode_encode .compress, decode_encode .pad, decode_encode .hash,
    decode_encode .forge⟩

/-! ### The assembler -/

theorem assemble_rotr {n : Nat} (h : n ≤ 31) :
    assemble "ROTR" (some n) = some (BitVec.ofNat 32 (2 + 256 * n)) := by
  have hn : (BitVec.ofNat 5 n).toNat = n := by
    rw [BitVec.toNat_ofNat]
    omega
  rw [assemble, if_pos ⟨rfl, h⟩, encode_rotr, hn]

theorem assemble_operand_of_ne {mnemonic : String} (h : mnemonic ≠ "ROTR") (n : Nat) :
    assemble mnemonic (some n) = none :=
  if_neg fun ⟨hm, _⟩ => h hm

/-- No two commands share a mnemonic, so the search ends at the command itself (R98). -/
theorem assemble_mnemonic {i : Instr} (h : i.mnemonic ≠ "ROTR") :
    assemble i.mnemonic none = some (encode i) := by
  cases i
  case rotr n => exact absurd rfl h
  all_goals rfl

/-- Settles O4: ROTR needs its amount, and every other mnemonic is found in the list of the commands
without an operand. -/
theorem assemblerTakesRotateAmountsUpToThirtyOne :
    Obligations.AssemblerTakesRotateAmountsUpToThirtyOne :=
  ⟨fun _ => assemble_rotr, fun _ h => if_neg fun ⟨_, hle⟩ => absurd hle h.not_ge, rfl,
    fun _ h => ⟨assemble_mnemonic h, assemble_operand_of_ne h⟩⟩

end Sys2Proof
end

section
/-! One step of either side: what the core runs, what the host's next access gets, and the wait of a latched
command (spec/60_exceptions.md R260, R267; spec/20_memory.md R66 to R70; spec/70_reset_and_hazards.md R290,
R294, R297). -/

namespace Sys2Proof.Machine

/-! ### The `STATUS` word -/

/-- Settles O11: each field is shifted to its place, and no two fields meet. -/
theorem statusWordHasItsFieldsInPlace : Obligations.StatusWordHasItsFieldsInPlace := by
  intro f k
  simp only [statusWord, BitVec.getLsbD_or, BitVec.getLsbD_shiftLeft, BitVec.getLsbD_setWidth,
    BitVec.getLsbD_ofBool]
  by_cases hk : k < 12
  · interval_cases k <;> simp
  · have herrcode : f.errcode.getLsbD (k - 8) = false := BitVec.getLsbD_of_ge _ _ (by omega)
    have h0 : k ≠ 0 := by omega
    have h1 : k - 1 ≠ 0 := by omega
    have h2 : k - 2 ≠ 0 := by omega
    simp [herrcode, h0, h1, h2, show k ≠ 1 by omega, show k ≠ 2 by omega, show ¬ k ≤ 11 by omega]

/-! ### The core's turn -/

/-- The probe's word is the latched command, and the delay is used up (R260; log entry 7). -/
theorem withFetchWord_encode (s : State) (i : Instr) :
    s.withFetchWord 32 (encode i).toNat =
      { s with cmd := encode i, status := ⟨true, false, false, 0⟩, delay := 0 } := by
  have hword : BitVec.ofNat 32 ((encode i).toNat % 2 ^ 32) = encode i := by
    rw [Nat.mod_eq_of_lt (encode i).isLt, BitVec.ofNat_toNat, BitVec.setWidth_eq]
  rw [State.withFetchWord, hword]
  rfl

/-- Settles O5: on the core's turn the step decodes and executes, and the probe makes it the core's turn. -/
theorem stepRunsTheDecodedCommand : Obligations.StepRunsTheDecodedCommand := by
  intro s i
  refine ⟨step_of_decode_ok, ?_⟩
  rw [withFetchWord_encode]
  exact step_of_decode_ok rfl (decode_encode i)

/-! ### The host's turn -/

section

variable {s t : State} {off v : Word} {size : Nat} {f : Fault} {rest : List HostOp}

theorem hostRead_of_ok (h : memRead s off size = .ok v) :
    hostRead s off size = .next { s with replies := s.replies ++ [v] } := by
  unfold hostRead
  rw [h]

theorem hostWrite_of_ok (h : memWrite s off size v = .ok t) : hostWrite s off size v = .next t := by
  unfold hostWrite
  rw [h]

/-- The first check of R66 (R68; log entry 10). -/
theorem memRead_misaligned (s : State) (h : size ≠ 4 ∨ off.toNat % 4 ≠ 0) :
    memRead s off size = .error .bus :=
  if_pos h

/-- The first check of R67 (R68; log entry 10). -/
theorem memWrite_misaligned (s : State) (v : Word) (h : size ≠ 4 ∨ off.toNat % 4 ≠ 0) :
    memWrite s off size v = .error .bus :=
  if_pos h

/-- An aligned word read passes the first check of R66. -/
theorem memRead_aligned (s : State) (ha : off.toNat % 4 = 0) : memRead s off 4 =
    if s.status.busy = true ∧ off ≠ 0x0004 then .error .hazard else readRegion s (region off.toNat) :=
  if_neg (by simp [ha])

/-- R294 for reads. -/
theorem memRead_busy (hb : s.status.busy = true) (ha : off.toNat % 4 = 0) (hoff : off ≠ 0x0004) :
    memRead s off 4 = .error .hazard := by
  rw [memRead_aligned s ha, if_pos ⟨hb, hoff⟩]

/-- R294 for writes. -/
theorem memWrite_busy (v : Word) (hb : s.status.busy = true) (ha : off.toNat % 4 = 0) :
    memWrite s off 4 v = .error .hazard := by
  unfold memWrite
  rw [if_neg (by simp [ha]), if_pos hb]

/-- A `STATUS` read is answered at any time (R66, R294). -/
theorem memRead_status (s : State) : memRead s 0x0004 4 = .ok (statusWord s.status) := by
  rw [memRead_aligned s rfl, if_neg fun h => h.2 rfl]
  rfl

/-- Whether a region takes a write does not depend on the state. -/
theorem writeRegion_error_congr {r : Region} (h : writeRegion s v r = .error f) (t : State) :
    writeRegion t v r = .error f := by
  cases r
  case buffer b j => cases b <;> cases h <;> rfl
  all_goals cases h <;> rfl

/-- The fault of a write depends on `BUSY` alone. -/
theorem memWrite_error_congr (h : memWrite s off size v = .error f)
    (hb : t.status.busy = s.status.busy) : memWrite t off size v = .error f := by
  unfold memWrite at h ⊢
  rw [hb]
  split_ifs at h ⊢
  · exact h
  · exact h
  · exact writeRegion_error_congr h t

theorem step_read_ok (hc : s.coreTurn = false) (hi : s.inputs = .read off size :: rest)
    (h : memRead s off size = .ok v) : step s = .next { s with
      inputs := rest, delay := s.delay - 1, replies := s.replies ++ [v] } := by
  rw [step_read hc hi]
  exact hostRead_of_ok ((memRead_hostSide s off size rest s.replies _ s.commands).trans h)

theorem step_read_error (hc : s.coreTurn = false) (hi : s.inputs = .read off size :: rest)
    (h : memRead s off size = .error f) : step s = .fault f := by
  rw [step_read hc hi]
  exact hostRead_of_error ((memRead_hostSide s off size rest s.replies _ s.commands).trans h)

theorem step_write_error (hc : s.coreTurn = false) (hi : s.inputs = .write off size v :: rest)
    (h : memWrite s off size v = .error f) : step s = .fault f := by
  rw [step_write hc hi]
  exact hostWrite_of_error (memWrite_error_congr h rfl)

end

/-- Settles O47: the check of width and alignment is the first of both accesses. -/
theorem misalignedOrNarrowAccessIsABusFault : Obligations.MisalignedOrNarrowAccessIsABusFault :=
  fun s _ v _ _ hc hbad =>
    ⟨fun hi => step_read_error hc hi (memRead_misaligned s hbad),
      fun hi => step_write_error hc hi (memWrite_misaligned s v hbad)⟩

/-- Settles O48: the busy check lets only a read of `STATUS` through. -/
theorem busyCoreAnswersOnlyStatusReads : Obligations.BusyCoreAnswersOnlyStatusReads :=
  fun s _ v _ hc hb ha =>
    ⟨fun hi hoff => step_read_error hc hi (memRead_busy hb ha hoff),
      fun hi => step_write_error hc hi (memWrite_busy v hb ha),
      fun hi => step_read_ok hc hi (memRead_status s)⟩

/-- Settles O50: the bus answers the same before and after the host's queue has moved on. -/
theorem hostAccessesGoThroughTheBus : Obligations.HostAccessesGoThroughTheBus := by
  intro s off v size rest hc
  refine ⟨fun hi => ⟨fun x => step_read_ok hc hi, fun f => step_read_error hc hi⟩,
    fun hi => ⟨fun t ht => ?_, fun f => step_write_error hc hi⟩⟩
  rw [step_write hc hi]
  exact hostWrite_of_ok ht

/-- Settles O6: offset 0 is `CMD`, and a write of an idle core's `CMD` is a latch, whose delay is the free
value. -/
theorem commandWriteLatchesAndClearsTheError : Obligations.CommandWriteLatchesAndClearsTheError := by
  intro s v rest hb hi
  refine ⟨Config.cmdLatency s.commands, ?_⟩
  rw [step_write (not_coreTurn_of_idle hb) hi]
  exact hostWrite_of_ok (memWrite_of_idle v hb rfl)

/-- Settles O56: a reset at the host's turn does not look at the state of the core. -/
theorem platformResetDropsTheLatchedCommand : Obligations.PlatformResetDropsTheLatchedCommand :=
  fun _ _ hc hi => (step_host hc).trans (hostTurn_cons hi)

/-! ### The wait of a latched command -/

section

variable {s : State} {rest : List HostOp}

/-- A command that still waits is not executed while the host has something to do (R297; log entry 3). -/
theorem not_coreTurn_of_delay {n : Nat} (hi : s.inputs = .poll :: rest) (hn : s.delay = n + 1) :
    s.coreTurn = false := by
  simp [State.coreTurn, hi, hn]

/-- One read of `POLL` while `BUSY = 1` (R99): it stays the next access, and uses up one unit of delay. -/
theorem step_poll {n : Nat} (hb : s.status.busy = true) (hi : s.inputs = .poll :: rest)
    (hn : s.delay = n + 1) : step s = .next { s with
      delay := n, replies := s.replies ++ [statusWord s.status] } := by
  rw [step_host (not_coreTurn_of_delay hi hn), hostTurn_cons hi]
  simp only [takeInput, hostPoll, hb, if_true, hn, Nat.add_sub_cancel, ← hi]
  exact hostRead_of_ok (memRead_status _)

/-- A step that answers a next state, then the rest of the run. -/
theorem run_succ_of_step (M : Host.Core) {u u' : M.State} (n : Nat) (h : M.step u = .next u') :
    M.run (n + 1) u = M.run n u' := by
  rw [Host.Core.run, h]

/-- The wait of `n` reads. -/
theorem run_poll {n : Nat} (hb : s.status.busy = true) (hi : s.inputs = .poll :: rest)
    (hn : s.delay = n) : core.run n s = .next { s with
      delay := 0, replies := s.replies ++ List.replicate n (statusWord s.status) } := by
  induction n generalizing s with
  | zero =>
    have hs : s = { s with delay := 0 } := by rw [← hn]
    rw [List.replicate_zero, List.append_nil]
    exact congrArg Host.Outcome.next hs
  | succ n ih =>
    refine (run_succ_of_step core n (step_poll hb hi hn)).trans ((ih ?_ ?_ rfl).trans ?_)
    · exact hb
    · exact hi
    rw [List.append_assoc, List.singleton_append, List.replicate_succ]

end

/-- Settles O10: by induction on the delay, of which each read uses up one unit. -/
theorem pollReachesTheExecuteStep : Obligations.PollReachesTheExecuteStep :=
  fun s _ hb hi => ⟨_, run_poll hb hi rfl, by simp [State.coreTurn, hb], rfl⟩

end Sys2Proof.Machine
end

section
/-! What the host bus reaches at an idle core: the registers and word arrays, the words of the byte buffers,
and what no host access changes (spec/20_memory.md R61, R65 to R67; spec/10_state.md R21 to R37). -/

namespace Sys2Proof.Machine

/-! ### The word arrays of the map -/

section

variable {i : Nat}

theorem region_st (hi : i < 8) : region (0x0100 + 4 * i) = .st i := by
  rw [region_eq_stateRegion (by omega) (by omega), stateRegion_hash (by omega),
    show (0x0100 + 4 * i - 0x0100) / 4 = i by omega]

theorem region_sched (hi : i < 64) : region (0x0200 + 4 * i) = .sched i := by
  rw [region_eq_tableRegion (by omega) (by omega)]
  unfold tableRegion
  rw [if_pos (by omega), show (0x0200 + 4 * i - 0x0200) / 4 = i by omega]

theorem region_const (hi : i < 64) : region (0x0400 + 4 * i) = .const i := by
  rw [region_eq_tableRegion (by omega) (by omega)]
  unfold tableRegion
  rw [if_neg (by omega), if_neg (by omega), if_neg (by omega), if_pos (by omega),
    show (0x0400 + 4 * i - 0x0400) / 4 = i by omega]

theorem region_iv (hi : i < 8) : region (0x0500 + 4 * i) = .iv i := by
  rw [region_eq_tableRegion (by omega) (by omega)]
  unfold tableRegion
  rw [if_neg (by omega), if_neg (by omega), if_neg (by omega), if_neg (by omega), if_pos (by omega),
    show (0x0500 + 4 * i - 0x0500) / 4 = i by omega]

end

/-! ### Reads of cells -/

section

variable {s : State} (hb : s.status.busy = false)

include hb

/-- A word read at an offset written as a number. -/
theorem memRead_ofNat {k : Nat} (hk : k < 2 ^ 32) (ha : k % 4 = 0) :
    memRead s (BitVec.ofNat 32 k) 4 = readRegion s (region k) := by
  have hoff : (BitVec.ofNat 32 k).toNat = k := by rw [BitVec.toNat_ofNat, Nat.mod_eq_of_lt hk]
  rw [memRead_of_idle hb (by rw [hoff, ha]), hoff]

theorem memRead_st {i : Nat} (hi : i < 8) :
    memRead s (BitVec.ofNat 32 (0x0100 + 4 * i)) 4 = readCell (eightAt s.st i) := by
  rw [memRead_ofNat hb (by omega) (by omega), region_st hi]
  rfl

theorem memRead_sched (i : Fin 64) :
    memRead s (BitVec.ofNat 32 (0x0200 + 4 * i.val)) 4 = readCell s.w[i] := by
  have hjoin : (s.w[i.val]?).join = s.w[i] := by simp
  rw [memRead_ofNat hb (by omega) (by omega), region_sched i.isLt, ← hjoin]
  rfl

theorem memRead_const {i : Nat} (hi : i < 64) :
    memRead s (BitVec.ofNat 32 (0x0400 + 4 * i)) 4 = .ok (roundConstants.getD i 0) := by
  have hlen : i < roundConstants.length := hi
  have hcell : roundConstants[i]? = some (roundConstants.getD i 0) := by
    rw [List.getD_eq_getElem _ _ hlen, List.getElem?_eq_getElem hlen]
  rw [memRead_ofNat hb (by omega) (by omega), region_const hi]
  exact congrArg readCell hcell

theorem memRead_iv {i : Nat} (hi : i < 8) :
    memRead s (BitVec.ofNat 32 (0x0500 + 4 * i)) 4 = .ok (eightAt initVector i) := by
  rw [memRead_ofNat hb (by omega) (by omega), region_iv hi]
  rfl

theorem memRead_ident : memRead s 0x0030 4 = .ok 0x53323536 := memRead_of_idle hb rfl

theorem memRead_msgcap : memRead s 0x0034 4 = .ok (BitVec.ofNat 32 Config.msgbufBytes) :=
  memRead_of_idle hb rfl

/-- R66 on every register and word that can hold `⊥`, and on the constants. -/
theorem memRead_cell {k : Nat} {cell : Option Word}
    (h : (k = 0x0008 ∧ cell = s.opa) ∨ (k = 0x000C ∧ cell = s.opb) ∨ (k = 0x0010 ∧ cell = s.opc) ∨
      (k = 0x0014 ∧ cell = s.result) ∨
      (∃ i, i < 8 ∧ k = 0x0100 + 4 * i ∧ cell = eightAt s.st i) ∨
      (∃ i : Fin 64, k = 0x0200 + 4 * i.val ∧ cell = s.w[i]) ∨
      (∃ i, i < 64 ∧ k = 0x0400 + 4 * i ∧ cell = some (roundConstants.getD i 0)) ∨
      (∃ i, i < 8 ∧ k = 0x0500 + 4 * i ∧ cell = some (eightAt initVector i))) :
    memRead s (BitVec.ofNat 32 k) 4 = readCell cell := by
  obtain ⟨rfl, rfl⟩ | ⟨rfl, rfl⟩ | ⟨rfl, rfl⟩ | ⟨rfl, rfl⟩ | ⟨i, hi, rfl, rfl⟩ | ⟨i, rfl, rfl⟩ |
    ⟨i, hi, rfl, rfl⟩ | ⟨i, hi, rfl, rfl⟩ := h
  · exact memRead_of_idle hb rfl
  · exact memRead_of_idle hb rfl
  · exact memRead_of_idle hb rfl
  · exact memRead_of_idle hb rfl
  · exact memRead_st hb hi
  · exact memRead_sched hb i
  · exact memRead_const hb hi
  · exact memRead_iv hb hi

end

/-- Settles O51: an idle core's bus asks the region alone, and the map gives each offset its register. -/
theorem registerAccessesReachTheRegister : Obligations.RegisterAccessesReachTheRegister := by
  intro s hb
  have read {off : Word} (ha : off.toNat % 4 = 0) := memRead_of_idle (s := s) hb ha
  have write {off : Word} (v : Word) (ha : off.toNat % 4 = 0) := memWrite_of_idle (s := s) v hb ha
  exact ⟨read rfl, memRead_status s, read rfl, read rfl, read rfl, read rfl, read rfl, read rfl,
    memRead_ident hb, memRead_msgcap hb, fun _ _ => memRead_cell hb, fun v => ⟨write v rfl, write v rfl,
      write v rfl, write v rfl, write v rfl, write v rfl, write v rfl, write v rfl⟩⟩

/-! ### The words of the byte buffers -/

/-- R61: an aligned offset inside a buffer names a word of it. -/
theorem region_of_buffer (b : Buf) {off : Nat} (hl : bufBase b ≤ off)
    (hu : off < bufBase b + bufSize b) : region off = .buffer b ((off - bufBase b) / 4) := by
  cases b <;> simp only [bufBase, bufSize] at hl hu ⊢
  case msgbuf =>
    unfold region
    rw [if_neg (by omega), if_neg (by omega), if_neg (by omega), if_pos (by omega)]
  case padbuf =>
    rw [region_eq_tableRegion (by omega) (by omega)]
    unfold tableRegion
    rw [if_neg (by omega), if_pos hu]
  case hexout => rw [region_eq_stateRegion (by omega) hu, stateRegion_hexout hl]
  case digest =>
    rw [region_eq_stateRegion (by omega) (by omega)]
    unfold stateRegion
    rw [if_neg (by omega), if_pos hu]
  case block =>
    rw [region_eq_stateRegion (by omega) (by omega)]
    unfold stateRegion
    rw [if_neg (by omega), if_neg (by omega), if_pos hu]
  case hexin =>
    rw [region_eq_stateRegion (by omega) (by omega)]
    unfold stateRegion
    rw [if_neg (by omega), if_neg (by omega), if_neg (by omega), if_pos hu]

/-- The offsets of a buffer's words. -/
def InBuf (b : Buf) (a : Nat) : Prop := bufBase b ≤ a ∧ a < bufBase b + bufSize b

theorem exists_inBuf_of_writable {a : Nat} (h : (0x0120 ≤ a ∧ a < 0x01C0) ∨
    (0x10000 ≤ a ∧ a < 0x10000 + Config.msgbufBytes)) :
    ∃ b : Buf, b ≠ .hexout ∧ b ≠ .padbuf ∧ InBuf b a := by
  obtain ⟨hl, hu⟩ | hmsgbuf := h
  · rcases Nat.lt_or_ge a 0x0140 with h1 | h1
    · exact ⟨.digest, by decide, by decide, hl, h1⟩
    rcases Nat.lt_or_ge a 0x0180 with h2 | h2
    · exact ⟨.block, by decide, by decide, h1, h2⟩
    · exact ⟨.hexin, by decide, by decide, h2, hu⟩
  · exact ⟨.msgbuf, by decide, by decide, hmsgbuf⟩

theorem exists_inBuf {a : Nat} (h : (0x0120 ≤ a ∧ a < 0x0200) ∨ (0x0300 ≤ a ∧ a < 0x0348) ∨
    (0x10000 ≤ a ∧ a < 0x10000 + Config.msgbufBytes)) : ∃ b : Buf, InBuf b a := by
  obtain ⟨hl, hu⟩ | hpadbuf | hmsgbuf := h
  · rcases Nat.lt_or_ge a 0x01C0 with h1 | h1
    · obtain ⟨b, -, -, hb⟩ := exists_inBuf_of_writable (.inl ⟨hl, h1⟩)
      exact ⟨b, hb⟩
    · exact ⟨.hexout, h1, hu⟩
  · exact ⟨.padbuf, hpadbuf⟩
  · exact ⟨.msgbuf, hmsgbuf⟩

/-- The first byte of the word that an aligned offset names. -/
theorem bufBase_add_word (b : Buf) {a : Nat} (ha : a % 4 = 0) (hl : bufBase b ≤ a) :
    bufBase b + 4 * ((a - bufBase b) / 4) = a := by
  have hbase : bufBase b % 4 = 0 := by cases b <;> rfl
  omega

section

variable {s : State} {off v : Word} {b : Buf} (hb : s.status.busy = false) (ha : off.toNat % 4 = 0)
  (hin : InBuf b off.toNat)

theorem writeRegion_buffer (s : State) (v : Word) (j : Nat) (hhexout : b ≠ .hexout)
    (hpadbuf : b ≠ .padbuf) : writeRegion s v (.buffer b j) =
      .ok { s with mem := Memory.writeBytes s.mem (bufBase b + 4 * j) (be32Bytes v) } := by
  cases b
  case hexout => exact absurd rfl hhexout
  case padbuf => exact absurd rfl hpadbuf
  all_goals rfl

include hb ha hin

theorem memRead_buffer :
    memRead s off 4 = readBuffer s.mem b ((off.toNat - bufBase b) / 4) := by
  rw [memRead_of_idle hb ha, region_of_buffer b hin.1 hin.2]
  rfl

/-- R65: one cell at `⊥` is enough. -/
theorem memRead_buffer_of_cell_none {k : Nat} (hk : k < 4)
    (hnone : Memory.read s.mem (off.toNat + k) = none) : memRead s off 4 = .error .unwritten := by
  rw [memRead_buffer hb ha hin]
  unfold readBuffer
  rw [bufBase_add_word b ha hin.1, Memory.readBytes_eq_none hk hnone]

theorem memRead_buffer_of_readBytes {b0 b1 b2 b3 : Byte}
    (h : Memory.readBytes s.mem off.toNat 4 = some [b0, b1, b2, b3]) :
    memRead s off 4 = .ok (be32 b0 b1 b2 b3) := by
  rw [memRead_buffer hb ha hin]
  unfold readBuffer
  rw [bufBase_add_word b ha hin.1, h]

theorem memWrite_buffer (hhexout : b ≠ .hexout) (hpadbuf : b ≠ .padbuf) : memWrite s off 4 v =
    .ok { s with mem := Memory.writeBytes s.mem off.toNat (be32Bytes v) } := by
  rw [memWrite_of_idle v hb ha, region_of_buffer b hin.1 hin.2,
    writeRegion_buffer s v _ hhexout hpadbuf, bufBase_add_word b ha hin.1]

end

/-- Settles O52: the write puts `be32Bytes v` at the offset's own addresses, and the read puts them together
again. -/
theorem bufferWordsArePackedBigEndian : Obligations.BufferWordsArePackedBigEndian := by
  intro s off v hb ha hoff
  obtain ⟨b, hhexout, hpadbuf, hin⟩ := exists_inBuf_of_writable hoff
  refine ⟨_, memWrite_buffer hb ha hin hhexout hpadbuf, rfl, fun k hk => ?_, fun a hout => ?_, ?_⟩
  · rw [Memory.read_writeBytes, be32Bytes_length, if_pos (by omega), Nat.add_sub_cancel_left,
      be32Bytes_getElem v hk]
  · rw [Memory.read_writeBytes, be32Bytes_length, if_neg (by omega)]
  · have hbytes := Memory.readBytes_writeBytes_self s.mem off.toNat (be32Bytes v)
    rw [memRead_buffer_of_readBytes (by exact hb) ha hin hbytes, be32_be32Bytes]

/-- Settles O53: the read of a buffer word reads its four cells. -/
theorem bufferReadsNeedAllFourCells : Obligations.BufferReadsNeedAllFourCells := by
  intro s off hb ha hoff
  obtain ⟨b, hin⟩ := exists_inBuf hoff
  refine ⟨fun k hk hnone => memRead_buffer_of_cell_none hb ha hin hk hnone, fun c hc => ?_⟩
  have hbytes : Memory.readBytes s.mem off.toNat 4 = some [c 0, c 1, c 2, c 3] :=
    Memory.readBytes_of_cells hc
  exact ⟨_, memRead_buffer_of_readBytes hb ha hin hbytes, be32_toNat _ _ _ _⟩

/-! ### What no host access changes -/

/-- The parts of the core that only the core itself and the platform reset write: `STATE`, `RESULT`, `W`,
`PADLEN`, the hidden cells, `HEXOUT` and `PADBUF` (R21, R24, R27, R33, R36, R37). -/
def SameResults (s t : State) : Prop :=
  t.st = s.st ∧ t.result = s.result ∧ t.w = s.w ∧ t.padlen = s.padlen ∧ t.hidden = s.hidden ∧
    ∀ a, (0x01C0 ≤ a ∧ a < 0x0200) ∨ (0x0300 ≤ a ∧ a < 0x0348) →
      Memory.read t.mem a = Memory.read s.mem a

/-- No buffer that the host may write meets `HEXOUT` or `PADBUF`. -/
theorem writable_disjoint {b : Buf} (hhexout : b ≠ .hexout) (hpadbuf : b ≠ .padbuf) {a : Nat}
    (ha : (0x01C0 ≤ a ∧ a < 0x0200) ∨ (0x0300 ≤ a ∧ a < 0x0348)) :
    a < bufBase b ∨ bufBase b + bufSize b ≤ a := by
  cases b
  case hexout => exact absurd rfl hhexout
  case padbuf => exact absurd rfl hpadbuf
  all_goals simp only [bufBase, bufSize]; omega

variable {s t : State}

theorem Written.sameResults {off v : Word} (h : Written s off v t) : SameResults s t := by
  cases h with
  | buffer b j hb ho hj =>
    refine ⟨rfl, rfl, rfl, rfl, rfl, fun a ha => ?_⟩
    have hout := writable_disjoint hb.1 hb.2 ha
    rw [Memory.read_writeBytes, be32Bytes_length, if_neg (by omega)]
  | command | opa | opb | opc | lenLo | lenHi | origLo | origHi | hexlen =>
    exact ⟨rfl, rfl, rfl, rfl, rfl, fun _ _ => rfl⟩

/-- What one input that is taken leaves: a read changes the host's own fields, a write is `Written`, and a
reset is the platform's. -/
theorem takeInput_next {op : HostOp} (h : takeInput op s = .next t) :
    (∃ i r, t = { s with inputs := i, replies := r }) ∨ (∃ off v, Written s off v t) ∨
      (op = .reset ∧ t = s.platformReset) := by
  cases op with
  | read off size =>
    obtain ⟨v, rfl⟩ := hostRead_next h
    exact .inl ⟨_, _, rfl⟩
  | write off size v =>
    obtain ⟨-, -, -, hwritten⟩ := memWrite_ok (hostWrite_next h)
    exact .inr (.inl ⟨off, v, hwritten⟩)
  | poll =>
    obtain ⟨v, rfl⟩ := hostRead_next h
    exact .inl ⟨_, _, rfl⟩
  | reset =>
    cases h
    exact .inr (.inr ⟨rfl, rfl⟩)

theorem takeInput_sameResults {op : HostOp} (h : takeInput op s = .next t) (hop : op ≠ .reset) :
    SameResults s t := by
  obtain ⟨i, r, rfl⟩ | ⟨off, v, hwritten⟩ | ⟨hreset, -⟩ := takeInput_next h
  · exact ⟨rfl, rfl, rfl, rfl, rfl, fun _ _ => rfl⟩
  · exact hwritten.sameResults
  · exact absurd hreset hop

/-- Settles O54: without an input the state stays, and no access that is taken but a reset changes the
core's results. -/
theorem hostNeverWritesTheCoresResults : Obligations.HostNeverWritesTheCoresResults := by
  intro s t hc hreset h
  rw [step_host hc] at h
  cases hi : s.inputs with
  | nil =>
    rw [hostTurn_nil hi] at h
    cases h
    exact ⟨rfl, rfl, rfl, rfl, rfl, fun _ _ => rfl⟩
  | cons op rest =>
    rw [hostTurn_cons hi] at h
    have hsame := takeInput_sameResults h fun hop => hreset rest (hop ▸ hi)
    exact hsame

/-! ### The state right after reset -/

/-- Settles O55: the registers and cells are the fields of the reset state, and the constants are read by an
idle core's bus. -/
theorem resetGivesTheTablesValues : Obligations.ResetGivesTheTablesValues := by
  have hb : State.reset.status.busy = false := rfl
  have empty {α : Type} (i : Nat) :
      eightAt (⟨none, none, none, none, none, none, none, none⟩ : Eight (Option α)) i = none := by
    unfold eightAt
    split <;> rfl
  refine ⟨rfl, rfl, rfl, rfl, rfl, rfl, rfl, rfl, rfl, rfl, rfl, rfl, memRead_ident hb,
    memRead_msgcap hb, empty, fun i => ?_, fun i => memRead_const hb, fun i => memRead_iv hb,
    fun _ => rfl, empty, rfl, rfl, fun i => ?_⟩
  · exact Vector.getElem_replicate _
  · exact Vector.getElem_replicate _

end Sys2Proof.Machine
end

section
/-! What each command writes, said once for all commands, and what follows: the registers and the bytes that a
command leaves (spec/10_state.md R21 to R36; spec/30_encoding.md R93; spec/40_bitops.md R120). -/

namespace Sys2Proof.Machine

theorem lawful_statusFailed (e : ErrCode) : (statusFailed e).lawful = true := by
  cases e <;> decide

section

variable {i : Instr} {s t : State}

/-- Case analysis of what a command that completes leaves: a new `STATUS` alone (NOP, and every error), or
success with the updates of its rule. Of the values written, only the sizes are kept. -/
theorem exec_cases {P : State → Prop} (h : exec i s = .next t)
    (status : ∀ f, f.lawful = true → P (s.setStatus f))
    (primitive : i = .add ∨ (∃ n, i = .rotr n) ∨ i = .ssig0 ∨ i = .ssig1 ∨ i = .bsig0 ∨ i = .bsig1 ∨
      i = .ch ∨ i = .maj → ∀ v, P ((s.setResult v).setStatus statusSuccess))
    (state : i = .round ∨ i = .init ∨ i = .deser ∨ i = .recoverhex →
      ∀ x, P ((s.setHash x).setStatus statusSuccess))
    (sched : i = .sched → ∀ l, l.length = 64 → P ((s.setSchedule l).setStatus statusSuccess))
    (compress : i = .compress → ∀ l x y, l.length = 64 →
      P ((((s.setSchedule l).setHash x).setSnap y).setStatus statusSuccess))
    (pad : i = .pad → ∀ n, P ((s.setPadding n).setStatus statusSuccess))
    (serial : i = .serial → ∀ x, P ((s.bufWrite .digest (serialize x)).setStatus statusSuccess))
    (hash : i = .hash → ∀ n r blks, r.schedule.length = 64 →
      P (((s.setPadding n).setCompressed r blks).setStatus statusSuccess))
    (hexenc : i = .hexenc → ∀ d, d.length = 32 →
      P ((s.bufWrite .hexout (hexEncode d)).setStatus statusSuccess))
    (forge : i = .forge → ∀ n r blks, r.schedule.length = 64 →
      P ((s.setForged n r blks).setStatus statusSuccess)) : P t := by
  have error (e : ErrCode) := status (statusFailed e) (lawful_statusFailed e)
  cases i with
  | nop =>
    obtain rfl := execNop_next.mp h
    exact status _ rfl
  | add =>
    obtain ⟨a, b, -, -, rfl⟩ := execAdd_next.mp h
    exact primitive (by simp) _
  | rotr n =>
    obtain ⟨-, rfl⟩ | ⟨-, x, -, rfl⟩ := execRotr_next.mp h
    · exact error _
    · exact primitive (by simp) _
  | ssig0 =>
    obtain ⟨x, -, rfl⟩ := execSsig0_next.mp h
    exact primitive (by simp) _
  | ssig1 =>
    obtain ⟨x, -, rfl⟩ := execSsig1_next.mp h
    exact primitive (by simp) _
  | bsig0 =>
    obtain ⟨x, -, rfl⟩ := execBsig0_next.mp h
    exact primitive (by simp) _
  | bsig1 =>
    obtain ⟨x, -, rfl⟩ := execBsig1_next.mp h
    exact primitive (by simp) _
  | ch =>
    obtain ⟨x, y, z, -, -, -, rfl⟩ := execCh_next.mp h
    exact primitive (by simp) _
  | maj =>
    obtain ⟨x, y, z, -, -, -, rfl⟩ := execMaj_next.mp h
    exact primitive (by simp) _
  | round =>
    obtain ⟨x, k, w, -, -, -, rfl⟩ := execRound_next.mp h
    exact state (by simp) _
  | init =>
    obtain rfl := execInit_next.mp h
    exact state (by simp) _
  | deser =>
    obtain ⟨d, -, rfl⟩ := execDeser_next.mp h
    exact state (by simp) _
  | recoverhex =>
    obtain ⟨-, rfl⟩ | ⟨-, c, -, ⟨-, rfl⟩ | ⟨d, -, rfl⟩⟩ := execRecoverhex_next.mp h
    · exact error _
    · exact error _
    · exact state (by simp) _
  | sched =>
    obtain ⟨blk, hblk, rfl⟩ := execSched_next.mp h
    exact sched rfl _ (schedule_length (Memory.readBytes_length hblk))
  | compress =>
    obtain ⟨x, blk, -, hblk, rfl⟩ := execCompress_next.mp h
    exact compress rfl _ _ _ (schedule_length (Memory.readBytes_length hblk))
  | pad =>
    obtain rfl := execPad_next.mp h
    exact pad rfl _
  | serial =>
    obtain ⟨x, -, rfl⟩ := execSerial_next.mp h
    exact serial rfl x
  | hash =>
    obtain ⟨-, rfl⟩ | ⟨-, m, -, rfl⟩ := execHash_next.mp h
    · exact error _
    · exact hash rfl _ _ _ (hashRun_schedule_length m)
  | hexenc =>
    obtain ⟨d, hd, rfl⟩ := execHexenc_next.mp h
    exact hexenc rfl d (Memory.readBytes_length hd)
  | forge =>
    obtain ⟨-, rfl⟩ | ⟨-, -, rfl⟩ | ⟨-, -, c, x, -, -, ⟨-, rfl⟩ | ⟨d, -, rfl⟩⟩ := execForge_next.mp h
    · exact error _
    · exact error _
    · exact error _
    · exact forge rfl _ _ _ (forgeRun_schedule_length d _ x)

end

/-! ### The registers -/

/-- Settles O44: the updates of each case, field by field. -/
theorem commandsWriteOnlyTheirRegisters : Obligations.CommandsWriteOnlyTheirRegisters := by
  intro i s t h
  apply exec_cases h
  case status => simp [State.ext_iff]
  case primitive =>
    rintro (rfl | ⟨n, rfl⟩ | rfl | rfl | rfl | rfl | rfl | rfl) <;> simp [State.ext_iff]
  case state => rintro (rfl | rfl | rfl | rfl) <;> simp [State.ext_iff]
  case sched | compress | pad | serial | hash | hexenc => rintro rfl; simp [State.ext_iff]
  case forge => rintro rfl; simp [State.ext_iff, State.setForged]

/-! ### The byte buffers -/

/-- Settles O45: five of the cases write memory, each in the buffers of its command. -/
theorem commandsWriteOnlyTheirBuffers : Obligations.CommandsWriteOnlyTheirBuffers := by
  intro i s t a h hdigest hhexout hpadbuf
  apply exec_cases h
  case status | primitive | state | sched | compress => simp
  case pad =>
    intro hi n
    have hpadbuf := hpadbuf (by simp [hi])
    rw [State.setStatus_mem, State.setPadding_read_outside s (by omega)]
  case serial =>
    intro hi x
    have hdigest := hdigest (by simp [hi])
    rw [State.setStatus_mem, State.bufWrite_digest_read_outside s x (by omega)]
  case hexenc =>
    intro hi d hd
    have hhexout := hhexout (by simp [hi])
    rw [State.setStatus_mem, State.bufWrite_hexout_read_outside s hd (by omega)]
  case hash =>
    intro hi n r blks _
    have hdigest := hdigest (by simp [hi])
    have hpadbuf := hpadbuf (by simp [hi])
    rw [State.setStatus_mem,
      State.setPadding_setCompressed_read_outside s n r blks (by omega) (by omega)]
  case forge =>
    intro hi n r blks _
    have hdigest := hdigest (by simp [hi])
    have hhexout := hhexout (by simp [hi])
    have hpadbuf := hpadbuf (by simp [hi])
    rw [State.setStatus_mem,
      State.setForged_read_outside s n r blks (by omega) (by omega) (by omega)]

end Sys2Proof.Machine
end

section
/-! The invariant of the state: every update that a command or a host access makes keeps it, so every step
does; and the canonical form of memory (spec/10_state.md R27, R30, R36; spec/44_padding.md R183;
spec/70_reset_and_hazards.md R290, R291). -/

namespace Sys2Proof.Machine

/-! ### What memory still holds after a write -/

theorem Memory.read_writeBytes_isSome {m : Memory} {x : Nat} (a : Nat) (l : List Byte)
    (h : (Memory.read m x).isSome = true) : (Memory.read (Memory.writeBytes m a l) x).isSome = true := by
  rw [Memory.read_writeBytes]
  split
  · rw [List.getElem?_eq_getElem (by omega)]
    rfl
  · exact h

theorem Memory.readBytes_writeBytes_isSome {m : Memory} {x n : Nat} (a : Nat) (l : List Byte)
    (h : (Memory.readBytes m x n).isSome = true) :
    (Memory.readBytes (Memory.writeBytes m a l) x n).isSome = true := by
  rw [Memory.readBytes_isSome_iff] at h ⊢
  exact fun i hi => Memory.read_writeBytes_isSome a l (h i hi)

/-! ### The clauses on the values written -/

theorem inBuffer_of_inBuf {b : Buf} {a : Nat} (h : InBuf b a) : inBuffer a = true := by
  obtain ⟨hl, hu⟩ := h
  refine List.any_eq_true.mpr ⟨b, by cases b <;> simp, ?_⟩
  rw [Bool.and_eq_true, decide_eq_true_iff, decide_eq_true_iff]
  exact ⟨hl, by omega⟩

theorem eightUniform_map_some {α : Type} (x : Eight α) : eightUniform (eightMap some x) = true := rfl

theorem cells_all_isSome {α : Type} {n : Nat} {l : List α} (h : n ≤ l.length) :
    (cells n l).all Option.isSome = true := by
  rw [Vector.all_eq_true]
  intro i hi
  rw [cells_getElem n l i hi, List.getElem?_eq_getElem (by omega)]
  rfl

/-! ### The updates keep the invariant -/

namespace State.Lawful

variable {s t : State}

/-- The invariant speaks of five fields. -/
theorem of_eq (h : s.Lawful) (hmem : t.mem = s.mem) (hstatus : t.status = s.status)
    (hpadlen : t.padlen = s.padlen) (hst : t.st = s.st) (hw : t.w = s.w) : t.Lawful where
  memory := hmem ▸ h.memory
  mapped := hmem ▸ h.mapped
  status := hstatus ▸ h.status
  padlen := by
    rw [hpadlen, State.bufRead, hmem]
    exact h.padlen
  hash := hst ▸ h.hash
  schedule := hw ▸ h.schedule

theorem setStatus (h : s.Lawful) {f : Status} (hf : f.lawful = true) : (s.setStatus f).Lawful :=
  { h with status := hf }

theorem setResult (h : s.Lawful) (v : Word) : (s.setResult v).Lawful := h.of_eq rfl rfl rfl rfl rfl

theorem setHash (h : s.Lawful) (x : Eight Word) : (s.setHash x).Lawful :=
  { h with hash := eightUniform_map_some x }

theorem setSchedule (h : s.Lawful) {l : List Word} (hl : l.length = 64) : (s.setSchedule l).Lawful :=
  { h with schedule := .inl (cells_all_isSome hl.ge) }

theorem setSnap (h : s.Lawful) (x : Eight Word) : (s.setSnap x).Lawful := h.of_eq rfl rfl rfl rfl rfl

theorem setBlock (h : s.Lawful) (j : Nat) (blk : List Byte) : (s.setBlock j blk).Lawful :=
  h.of_eq rfl rfl rfl rfl rfl

/-- Bytes written inside a buffer list only its cells, and no cell loses its value. -/
theorem writeBytes (h : s.Lawful) {b : Buf} {a : Nat} {l : List Byte}
    (hin : ∀ x, a ≤ x → x < a + l.length → InBuf b x) :
    State.Lawful { s with mem := Memory.writeBytes s.mem a l } where
  memory := Memory.writeBytes_wf a l h.memory
  mapped := fun c hc => by
    obtain ⟨hl, hu⟩ | hc := Memory.mem_writeBytes hc
    · exact inBuffer_of_inBuf (hin c.1 hl hu)
    · exact h.mapped c hc
  status := h.status
  padlen := h.padlen.imp id fun ⟨hl, hu, hheld⟩ =>
    ⟨hl, hu, Memory.readBytes_writeBytes_isSome a l hheld⟩
  hash := h.hash
  schedule := h.schedule

theorem bufWrite (h : s.Lawful) (b : Buf) {l : List Byte} (hl : l.length ≤ bufSize b) :
    (s.bufWrite b l).Lawful :=
  h.writeBytes fun _ hge hlt => ⟨hge, by omega⟩

/-- A written `PADLEN` comes with all of `PADBUF` (R183). -/
theorem setPadding (h : s.Lawful) (n : Nat) : (s.setPadding n).Lawful := by
  have hlen := padbufBytes_length n
  have hbytes : (s.bufWrite .padbuf (padbufBytes (pad n))).bufRead .padbuf 72 =
      some (padbufBytes (pad n)) := by
    rw [State.bufRead, State.bufWrite_mem, ← hlen, Memory.readBytes_writeBytes_self]
  have hpadlen : (BitVec.ofNat 32 (pad n).length).toNat = (pad n).length := by
    have := pad_length_bounds n
    rw [BitVec.toNat_ofNat]
    omega
  refine { h.bufWrite .padbuf hlen.le with padlen := .inr ?_ }
  rw [State.setPadding_padlen, hpadlen]
  exact ⟨(pad_length_bounds n).1, (pad_length_bounds n).2, Option.isSome_of_eq_some hbytes⟩

theorem setCompressed (h : s.Lawful) {r : Compressed} (blks : List (List Byte))
    (hr : r.schedule.length = 64) : (s.setCompressed r blks).Lawful :=
  ((((h.setSchedule hr).setHash r.state).bufWrite .digest (serialize_length r.state).le).setSnap
    r.snap).setBlock _ _

theorem setForged (h : s.Lawful) (n : Nat) {r : Compressed} (blks : List (List Byte))
    (hr : r.schedule.length = 64) : (s.setForged n r blks).Lawful :=
  ((h.setPadding n).setCompressed blks hr).bufWrite .hexout
    (by rw [hexEncode_length, serialize_length]; rfl)

/-! ### The steps keep the invariant -/

theorem raiseError (h : s.Lawful) (e : ErrCode) : (s.setStatus (statusFailed e)).Lawful :=
  h.setStatus (lawful_statusFailed e)

theorem succeed (h : s.Lawful) : (s.setStatus statusSuccess).Lawful := h.setStatus rfl

theorem exec {i : Instr} (h : s.Lawful) (hexec : exec i s = .next t) : t.Lawful := by
  apply exec_cases hexec
  case status => exact fun _ => h.setStatus
  case primitive => exact fun _ v => (h.setResult v).succeed
  case state => exact fun _ x => (h.setHash x).succeed
  case sched => exact fun _ _ hl => (h.setSchedule hl).succeed
  case compress => exact fun _ _ x y hl => (((h.setSchedule hl).setHash x).setSnap y).succeed
  case pad => exact fun _ n => (h.setPadding n).succeed
  case serial => exact fun _ x => (h.bufWrite .digest (serialize_length x).le).succeed
  case hash => exact fun _ n _ blks hr => ((h.setPadding n).setCompressed blks hr).succeed
  case hexenc => exact fun _ _ hd => (h.bufWrite .hexout (by rw [hexEncode_length, hd]; rfl)).succeed
  case forge => exact fun _ n _ blks hr => (h.setForged n blks hr).succeed

theorem executeLatched (h : s.Lawful) (hexec : executeLatched s = .next t) : t.Lawful := by
  unfold Machine.executeLatched at hexec
  split at hexec
  case h_1 e _ =>
    obtain rfl := (raiseError_eq_next e s t).mp hexec
    exact h.raiseError e
  case h_2 i _ => exact h.exec hexec

theorem latch (h : s.Lawful) (v : Word) : (s.latch v).Lawful := { h with status := rfl }

theorem written {off v : Word} (h : s.Lawful) (hwritten : Written s off v t) : t.Lawful := by
  cases hwritten with
  | command => exact h.latch v
  | opa | opb | opc | lenLo | lenHi | origLo | origHi | hexlen => exact h.of_eq rfl rfl rfl rfl rfl
  | buffer b j _ _ hj =>
    refine h.writeBytes (b := b) fun x hge hlt => ?_
    rw [be32Bytes_length] at hlt
    exact ⟨by omega, by omega⟩

end State.Lawful

/-- Settles O58: right after reset there is no byte in memory and no value in `STATE` and `W`. -/
theorem resetStateIsLawful : Obligations.ResetStateIsLawful where
  memory := List.Pairwise.nil
  mapped := fun _ hc => absurd hc List.not_mem_nil
  status := rfl
  padlen := .inl rfl
  hash := rfl
  schedule := .inr (Vector.all_eq_true.mpr fun _ hi =>
    congrArg Option.isNone (Vector.getElem_replicate hi))

theorem State.Lawful.hostTurn {s t : State} (h : s.Lawful) (hturn : hostTurn s = .next t) :
    t.Lawful := by
  cases hi : s.inputs with
  | nil =>
    rw [hostTurn_nil hi] at hturn
    cases hturn
    exact h
  | cons op rest =>
    rw [hostTurn_cons hi] at hturn
    have hmoved : State.Lawful { s with inputs := rest, delay := s.delay - 1 } :=
      h.of_eq rfl rfl rfl rfl rfl
    obtain ⟨_, _, rfl⟩ | ⟨_, _, hwritten⟩ | ⟨-, rfl⟩ := takeInput_next hturn
    · exact hmoved.of_eq rfl rfl rfl rfl rfl
    · exact hmoved.written hwritten
    · exact State.Lawful.of_eq resetStateIsLawful rfl rfl rfl rfl rfl

/-- Settles O57: the core's step leaves the effect of a command or an error, and the host's step a read, a
write or the reset state. -/
theorem everyStepKeepsTheStateLawful : Obligations.EveryStepKeepsTheStateLawful := by
  intro s t h hstep
  cases hc : s.coreTurn with
  | true =>
    rw [step_core hc] at hstep
    exact h.executeLatched hstep
  | false =>
    rw [step_host hc] at hstep
    exact h.hostTurn hstep

/-! ### The canonical form -/

/-- A canonical memory reads a byte exactly where it lists it. -/
theorem Memory.read_eq_some_iff_mem {m : Memory} (h : Memory.wf m) {a : Nat} {b : Byte} :
    Memory.read m a = some b ↔ (a, b) ∈ m := by
  induction m with
  | nil => simp [Memory.read]
  | cons c m ih =>
    obtain ⟨k, c⟩ := c
    obtain ⟨hk, hm⟩ := List.pairwise_cons.mp h
    rw [Memory.read]
    split
    case isTrue heq =>
      subst heq
      have hunlisted : (k, b) ∉ m := fun hmem => lt_irrefl k (hk _ hmem)
      simp [hunlisted, eq_comm]
    case isFalse hne =>
      have hhead : (a, b) ≠ (k, c) := fun heq => hne (congrArg Prod.fst heq).symm
      rw [ih hm, List.mem_cons, or_iff_right hhead]

/-- Settles O59: memories that read alike list the same cells, and rising addresses leave them one order. -/
theorem canonicalMemoriesThatReadAlikeAreEqual :
    Obligations.CanonicalMemoriesThatReadAlikeAreEqual := by
  intro m m' h h' hread
  have hnodup {l : Memory} (hl : Memory.wf l) : l.Nodup := hl.imp fun hlt heq => hlt.ne (congrArg _ heq)
  have hperm : m.Perm m' := (List.perm_ext_iff_of_nodup (hnodup h) (hnodup h')).mpr fun ⟨a, b⟩ => by
    rw [← Memory.read_eq_some_iff_mem h, ← Memory.read_eq_some_iff_mem h', hread]
  exact hperm.eq_of_pairwise (fun _ _ _ _ hlt hgt => absurd hgt hlt.asymm) h h'

end Sys2Proof.Machine
end

section
/-! The hidden cells: no command and no host access sees what they hold (spec/10_state.md R37). -/

namespace Sys2Proof.Machine

/-! ### States and outcomes that differ in the hidden cells alone -/

def State.setHidden (s : State) (h : Hidden) : State := { s with hidden := h }

section

variable (s : State) (h : Hidden)

theorem State.setHidden_cmd : (s.setHidden h).cmd = s.cmd := rfl
theorem State.setHidden_status : (s.setHidden h).status = s.status := rfl
theorem State.setHidden_hexlen : (s.setHidden h).hexlen = s.hexlen := rfl
theorem State.setHidden_inputs : (s.setHidden h).inputs = s.inputs := rfl
theorem State.setHidden_len : (s.setHidden h).len = s.len := rfl
theorem State.setHidden_origLen : (s.setHidden h).origLen = s.origLen := rfl
theorem State.setHidden_coreTurn : (s.setHidden h).coreTurn = s.coreTurn := rfl

end

/-- The second state is the first but for the hidden cells. -/
def EqButHidden (s s' : State) : Prop := ∃ h, s' = s.setHidden h

/-- The second outcome follows the first: to a next state that is equal but for the hidden cells, or to the
same fault. -/
def AlikeButHidden (r r' : Result) : Prop :=
  (∀ t, r = .next t → ∃ h, r' = .next (t.setHidden h)) ∧ (∀ f, r = .fault f → r' = .fault f)

/-! ### Every update keeps them alike -/

namespace EqButHidden

variable {s s' : State}

theorem setHidden (s : State) (h : Hidden) : EqButHidden s (s.setHidden h) := ⟨h, rfl⟩

theorem setStatus (h : EqButHidden s s') (f : Status) : EqButHidden (s.setStatus f) (s'.setStatus f) := by
  obtain ⟨hid, rfl⟩ := h
  exact ⟨hid, rfl⟩

theorem setResult (h : EqButHidden s s') (v : Word) : EqButHidden (s.setResult v) (s'.setResult v) := by
  obtain ⟨hid, rfl⟩ := h
  exact ⟨hid, rfl⟩

theorem setHash (h : EqButHidden s s') (x : Eight Word) : EqButHidden (s.setHash x) (s'.setHash x) := by
  obtain ⟨hid, rfl⟩ := h
  exact ⟨hid, rfl⟩

theorem setSchedule (h : EqButHidden s s') (l : List Word) :
    EqButHidden (s.setSchedule l) (s'.setSchedule l) := by
  obtain ⟨hid, rfl⟩ := h
  exact ⟨hid, rfl⟩

theorem setPadlen (h : EqButHidden s s') (n : Nat) : EqButHidden (s.setPadlen n) (s'.setPadlen n) := by
  obtain ⟨hid, rfl⟩ := h
  exact ⟨hid, rfl⟩

theorem bufWrite (h : EqButHidden s s') (b : Buf) (l : List Byte) :
    EqButHidden (s.bufWrite b l) (s'.bufWrite b l) := by
  obtain ⟨hid, rfl⟩ := h
  exact ⟨hid, rfl⟩

theorem setSnap (h : EqButHidden s s') (x : Eight Word) : EqButHidden (s.setSnap x) (s'.setSnap x) := by
  obtain ⟨hid, rfl⟩ := h
  exact ⟨_, rfl⟩

theorem setBlock (h : EqButHidden s s') (j : Nat) (blk : List Byte) :
    EqButHidden (s.setBlock j blk) (s'.setBlock j blk) := by
  obtain ⟨hid, rfl⟩ := h
  exact ⟨_, rfl⟩

theorem setPadding (h : EqButHidden s s') (n : Nat) : EqButHidden (s.setPadding n) (s'.setPadding n) :=
  (h.bufWrite _ _).setPadlen _

theorem setCompressed (h : EqButHidden s s') (r : Compressed) (blks : List (List Byte)) :
    EqButHidden (s.setCompressed r blks) (s'.setCompressed r blks) :=
  ((((h.setSchedule _).setHash _).bufWrite _ _).setSnap _).setBlock _ _

end EqButHidden

namespace AlikeButHidden

variable {s s' : State}

theorem next (h : EqButHidden s s') : AlikeButHidden (.next s) (.next s') := by
  obtain ⟨hid, rfl⟩ := h
  refine ⟨fun t ht => ?_, fun f hf => ?_⟩
  · cases ht
    exact ⟨hid, rfl⟩
  · cases hf

theorem fault (f : Fault) : AlikeButHidden (.fault f) (.fault f) := by
  refine ⟨fun t ht => ?_, fun _ hf => hf⟩
  cases ht

theorem complete (h : EqButHidden s s') : AlikeButHidden (complete s) (complete s') :=
  .next (h.setStatus _)

theorem raiseError (h : EqButHidden s s') (e : ErrCode) :
    AlikeButHidden (raiseError e s) (raiseError e s') :=
  .next (h.setStatus _)

/-- Meanings that read the same operand and go on alike. -/
theorem withOperand {α : Type} (x : Option α) {k k' : α → Result}
    (h : ∀ v, AlikeButHidden (k v) (k' v)) : AlikeButHidden (withOperand x k) (withOperand x k') := by
  cases x with
  | none => exact .fault _
  | some v => exact h v

end AlikeButHidden

/-! ### The commands -/

variable (s : State) (hid : Hidden)

theorem exec_setHidden (i : Instr) : AlikeButHidden (exec i s) (exec i (s.setHidden hid)) := by
  have h : EqButHidden s (s.setHidden hid) := .setHidden s hid
  cases i with
  | nop => exact .complete h
  | add => exact .withOperand s.opa fun _ => .withOperand s.opb fun _ => .complete (h.setResult _)
  | rotr n =>
    simp only [exec, execRotr]
    split
    · exact .raiseError h _
    · exact .withOperand s.opa fun _ => .complete (h.setResult _)
  | ssig0 => exact .withOperand s.opa fun _ => .complete (h.setResult _)
  | ssig1 => exact .withOperand s.opa fun _ => .complete (h.setResult _)
  | bsig0 => exact .withOperand s.opa fun _ => .complete (h.setResult _)
  | bsig1 => exact .withOperand s.opa fun _ => .complete (h.setResult _)
  | ch =>
    exact .withOperand s.opa fun _ => .withOperand s.opb fun _ => .withOperand s.opc fun _ =>
      .complete (h.setResult _)
  | maj =>
    exact .withOperand s.opa fun _ => .withOperand s.opb fun _ => .withOperand s.opc fun _ =>
      .complete (h.setResult _)
  | sched => exact .withOperand s.block fun _ => .complete (h.setSchedule _)
  | round =>
    exact .withOperand s.hashWords fun _ => .withOperand s.opa fun _ => .withOperand s.opb fun _ =>
      .complete (h.setHash _)
  | compress =>
    exact .withOperand s.hashWords fun _ => .withOperand s.block fun _ =>
      .complete (((h.setSchedule _).setHash _).setSnap _)
  | pad => exact .complete (h.setPadding s.len)
  | init => exact .complete (h.setHash _)
  | serial => exact .withOperand s.hashWords fun _ => .complete (h.bufWrite _ _)
  | hash =>
    rw [exec, exec, execHash, execHash, State.setHidden_len]
    split
    · exact .raiseError h _
    · exact .withOperand s.message fun _ => .complete ((h.setPadding _).setCompressed _ _)
  | deser => exact .withOperand s.digest fun _ => .complete (h.setHash _)
  | recoverhex =>
    rw [exec, exec, execRecoverhex, execRecoverhex, State.setHidden_hexlen]
    split
    · exact .raiseError h _
    · refine .withOperand s.hexin fun c => ?_
      split
      · exact .raiseError h _
      · exact .complete (h.setHash _)
  | hexenc => exact .withOperand s.digest fun _ => .complete (h.bufWrite _ _)
  | forge =>
    rw [exec, exec, execForge, execForge, State.setHidden_len, State.setHidden_hexlen,
      State.setHidden_origLen]
    split
    · exact .raiseError h _
    · split
      · exact .raiseError h _
      · refine .withOperand s.hexin fun c => .withOperand s.message fun x => ?_
        split
        · exact .raiseError h _
        · exact .complete (((h.setPadding _).setCompressed _ _).bufWrite _ _)

theorem executeLatched_setHidden :
    AlikeButHidden (executeLatched s) (executeLatched (s.setHidden hid)) := by
  rw [executeLatched, executeLatched, State.setHidden_cmd]
  split
  · exact .raiseError (.setHidden s hid) _
  · exact exec_setHidden s hid _

/-! ### The host's accesses -/

theorem memRead_setHidden (off : Word) (size : Nat) :
    memRead (s.setHidden hid) off size = memRead s off size := by
  unfold memRead
  cases region off.toNat <;> rfl

/-- A write reaches the same field whatever the hidden cells hold. -/
theorem writeRegion_setHidden (v : Word) (r : Region) :
    writeRegion (s.setHidden hid) v r = (writeRegion s v r).map (·.setHidden hid) := by
  cases r
  case buffer b j => cases b <;> rfl
  all_goals rfl

theorem memWrite_setHidden (off : Word) (size : Nat) (v : Word) :
    memWrite (s.setHidden hid) off size v = (memWrite s off size v).map (·.setHidden hid) := by
  rw [memWrite, memWrite, writeRegion_setHidden, State.setHidden_status]
  split_ifs <;> rfl

theorem hostRead_setHidden (off : Word) (size : Nat) :
    AlikeButHidden (hostRead s off size) (hostRead (s.setHidden hid) off size) := by
  rw [hostRead, hostRead, memRead_setHidden]
  cases memRead s off size with
  | ok v => exact .next ⟨hid, rfl⟩
  | error f => exact .fault f

theorem hostWrite_setHidden (off : Word) (size : Nat) (v : Word) :
    AlikeButHidden (hostWrite s off size v) (hostWrite (s.setHidden hid) off size v) := by
  rw [hostWrite, hostWrite, memWrite_setHidden]
  cases memWrite s off size v with
  | ok t => exact .next ⟨hid, rfl⟩
  | error f => exact .fault f

theorem takeInput_setHidden (op : HostOp) :
    AlikeButHidden (takeInput op s) (takeInput op (s.setHidden hid)) := by
  cases op with
  | read off size => exact hostRead_setHidden s hid off size
  | write off size v => exact hostWrite_setHidden s hid off size v
  | poll => exact hostRead_setHidden _ hid _ _
  | reset => exact .next ⟨_, rfl⟩

theorem hostTurn_setHidden : AlikeButHidden (hostTurn s) (hostTurn (s.setHidden hid)) := by
  rw [hostTurn, hostTurn, State.setHidden_inputs]
  split
  · exact .next (.setHidden s hid)
  · exact takeInput_setHidden _ hid _

theorem step_setHidden : AlikeButHidden (step s) (step (s.setHidden hid)) := by
  rw [step, step, State.setHidden_coreTurn]
  split
  · exact executeLatched_setHidden s hid
  · exact hostTurn_setHidden s hid

/-- Settles O46: the second step follows the first. -/
theorem hiddenStateIsNeverSeen : Obligations.HiddenStateIsNeverSeen := step_setHidden

end Sys2Proof.Machine
end

section
/-! The two laws of the hex codec (spec/46_length_extension.md R223), and where the round constants come from
(spec/10_state.md R34). -/

namespace Sys2Proof.Machine

/-- Settles O33: the two laws of R223. -/
theorem hexCodecRoundTrips : Obligations.HexCodecRoundTrips :=
  ⟨fun _ => hexDecode_hexEncode, fun _ _ => hexEncode_hexDecode⟩

/-! ### Counting primes -/

/-- Entry `i` of the numbers with a property has `i` of them below it. -/
theorem length_filter_range_getD {P : Nat → Bool} {n i : Nat}
    (hi : i < ((List.range n).filter P).length) :
    ((List.range (((List.range n).filter P).getD i 0)).filter P).length = i := by
  induction n with
  | zero => simp at hi
  | succ n ih =>
    rw [List.range_succ, List.filter_append] at hi ⊢
    by_cases hlt : i < ((List.range n).filter P).length
    · rw [List.getD_append _ _ _ _ hlt, ih hlt]
    · cases hP : P n with
      | true =>
        rw [List.filter_singleton, hP, cond_true, List.length_append, List.length_singleton] at hi
        obtain rfl : i = ((List.range n).filter P).length := by omega
        simp [hP]
      | false =>
        rw [List.filter_singleton, hP, cond_false, List.append_nil] at hi
        exact absurd hi hlt

/-- Whether no number from 2 to 18 is a proper divisor. -/
def hasNoSmallDivisor (n : Nat) : Bool :=
  decide (2 ≤ n) && (List.range 19).all fun d => decide (d < 2) || n % d != 0 || n == d

/-- The smallest divisor of a composite number is at most its square root. -/
theorem prime_iff_hasNoSmallDivisor {n : Nat} (hn : n < 19 ^ 2) :
    n.Prime ↔ hasNoSmallDivisor n = true := by
  simp only [hasNoSmallDivisor, Bool.and_eq_true, decide_eq_true_iff, List.all_eq_true, List.mem_range,
    Bool.or_eq_true, bne_iff_ne, beq_iff_eq]
  constructor
  · refine fun h => ⟨h.two_le, fun d _ => ?_⟩
    by_cases hdvd : d ∣ n
    · obtain rfl | rfl := (Nat.dvd_prime h).mp hdvd <;> simp
    · exact .inl (.inr fun hmod => hdvd (Nat.dvd_of_mod_eq_zero hmod))
  · rintro ⟨h2, hsmall⟩
    by_contra hcomposite
    have hprime := Nat.minFac_prime (n := n) (by omega)
    have hsq := Nat.minFac_sq_le_self (by omega) hcomposite
    obtain (hlt | hmod) | heq := hsmall n.minFac (lt_of_pow_lt_pow_left₀ 2 (by omega) (hsq.trans_lt hn))
    · exact absurd hprime.two_le hlt.not_ge
    · exact hmod (Nat.mod_eq_zero_of_dvd n.minFac_dvd)
    · exact hcomposite (heq ▸ hprime)

/-! ### The round constants -/

/-- The first 64 primes, in order. -/
def firstPrimes : List Nat :=
  [2, 3, 5, 7, 11, 13, 17, 19, 23, 29, 31, 37, 41, 43, 47, 53] ++
  [59, 61, 67, 71, 73, 79, 83, 89, 97, 101, 103, 107, 109, 113, 127, 131] ++
  [137, 139, 149, 151, 157, 163, 167, 173, 179, 181, 191, 193, 197, 199, 211, 223] ++
  [227, 229, 233, 239, 241, 251, 257, 263, 269, 271, 277, 281, 283, 293, 307, 311]

theorem filter_prime_range : (List.range 312).filter Nat.Prime = firstPrimes := by
  calc (List.range 312).filter Nat.Prime
    _ = (List.range 312).filter hasNoSmallDivisor := List.filter_congr fun n hn => by
      have hn := List.mem_range.mp hn
      rw [Bool.eq_iff_iff, decide_eq_true_iff, prime_iff_hasNoSmallDivisor (by omega)]
    _ = firstPrimes := by decide

/-- The whole part of the cube root of a number below 8^3. -/
def wholeCubeRoot (p : Nat) : Nat := ((List.range 7).filter fun c => (c + 1) ^ 3 ≤ p).length

theorem wholeCubeRoot_bounds : ∀ p ∈ firstPrimes,
    wholeCubeRoot p ^ 3 ≤ p ∧ p < (wholeCubeRoot p + 1) ^ 3 := by
  decide

/-- R34's table: the whole part of the cube root of `p·2^96` has `K[i]` as its last 32 bits. -/
theorem roundConstants_bounds : ∀ i, i < 64 →
    (wholeCubeRoot (firstPrimes.getD i 0) * 2 ^ 32 + (roundConstants.getD i 0).toNat) ^ 3 ≤
        firstPrimes.getD i 0 * 2 ^ 96 ∧
      firstPrimes.getD i 0 * 2 ^ 96 <
        (wholeCubeRoot (firstPrimes.getD i 0) * 2 ^ 32 + (roundConstants.getD i 0).toNat + 1) ^ 3 := by
  decide

/-- Settles O22: the witness is entry `i` of the list of primes, with the whole part of its cube root. -/
theorem roundConstantsAreCubeRootFractions : Obligations.RoundConstantsAreCubeRootFractions := by
  intro i hi
  have hlen : i < firstPrimes.length := hi
  have hmem : firstPrimes.getD i 0 ∈ firstPrimes := by
    rw [List.getD_eq_getElem _ _ hlen]
    exact List.getElem_mem hlen
  have hprime : (firstPrimes.getD i 0).Prime := by
    rw [← filter_prime_range] at hmem ⊢
    exact of_decide_eq_true (List.mem_filter.mp hmem).2
  have hcount : ((List.range (firstPrimes.getD i 0)).filter Nat.Prime).length = i := by
    rw [← filter_prime_range] at hlen ⊢
    exact length_filter_range_getD hlen
  obtain ⟨hl, hu⟩ := wholeCubeRoot_bounds _ hmem
  obtain ⟨hlow, hhigh⟩ := roundConstants_bounds i hi
  exact ⟨_, _, hprime, hcount, hl, hu, hlow, hhigh⟩

end Sys2Proof.Machine
end
